-- ==== Sys2Proof/Word.lean ====
section
/-! DEFINITION. The word types of the machine (spec/00_scope.md R9, R10; spec/30_encoding.md R92) and nothing else. -/

namespace Sys2Proof

/-- An 8-bit value: a general register, a timer, a byte of memory. -/
abbrev Byte := BitVec 8

/-- A 16-bit value: an instruction word, the index register, the program counter, a stack entry. -/
abbrev Word := BitVec 16

/-- A 4-bit field of an instruction word. -/
abbrev Nibble := BitVec 4

/-- The index of a general register: the 4-bit field x or y (R92), so always in 0..15. -/
abbrev RegIdx := BitVec 4

/-- The 12-bit address field nnn (R92). -/
abbrev Addr := BitVec 12

end Sys2Proof
end

