-- ==== Sys2Proof/Syntax.lean ====
section
/-! DEFINITION. The instructions, one constructor per row of spec/opcode_table.json (spec/30_encoding.md R98), in the
table's order. Operands are the fields of the word the row uses (R92, R94), each of its field's width. -/

namespace Sys2Proof

/-- The 34 instructions. The spec's pattern and mnemonic stand beside each. -/
inductive Instr where
  /-- `00E0` CLS -/
  | cls
  /-- `00EE` RET -/
  | ret
  /-- `1nnn` JP nnn -/
  | jp (nnn : Addr)
  /-- `2nnn` CALL nnn -/
  | call (nnn : Addr)
  /-- `3xkk` SE Vx, kk -/
  | seImm (x : RegIdx) (kk : Byte)
  /-- `4xkk` SNE Vx, kk -/
  | sneImm (x : RegIdx) (kk : Byte)
  /-- `5xy0` SE Vx, Vy -/
  | seReg (x y : RegIdx)
  /-- `6xkk` LD Vx, kk -/
  | ldImm (x : RegIdx) (kk : Byte)
  /-- `7xkk` ADD Vx, kk -/
  | addImm (x : RegIdx) (kk : Byte)
  /-- `8xy0` LD Vx, Vy -/
  | ldReg (x y : RegIdx)
  /-- `8xy1` OR Vx, Vy -/
  | orReg (x y : RegIdx)
  /-- `8xy2` AND Vx, Vy -/
  | andReg (x y : RegIdx)
  /-- `8xy3` XOR Vx, Vy -/
  | xorReg (x y : RegIdx)
  /-- `8xy4` ADD Vx, Vy -/
  | addReg (x y : RegIdx)
  /-- `8xy5` SUB Vx, Vy -/
  | subReg (x y : RegIdx)
  /-- `8xy6` SHR Vx, Vy -/
  | shrReg (x y : RegIdx)
  /-- `8xy7` SUBN Vx, Vy -/
  | subnReg (x y : RegIdx)
  /-- `8xyE` SHL Vx, Vy -/
  | shlReg (x y : RegIdx)
  /-- `9xy0` SNE Vx, Vy -/
  | sneReg (x y : RegIdx)
  /-- `Annn` LD I, nnn -/
  | ldI (nnn : Addr)
  /-- `Bnnn` JP V0, nnn -/
  | jpV0 (nnn : Addr)
  /-- `Cxkk` RND Vx, kk -/
  | rnd (x : RegIdx) (kk : Byte)
  /-- `Dxyn` DRW Vx, Vy, n -/
  | drw (x y : RegIdx) (n : Nibble)
  /-- `Ex9E` SKP Vx -/
  | skp (x : RegIdx)
  /-- `ExA1` SKNP Vx -/
  | sknp (x : RegIdx)
  /-- `Fx07` LD Vx, DT -/
  | ldVxDt (x : RegIdx)
  /-- `Fx0A` LD Vx, K -/
  | ldVxK (x : RegIdx)
  /-- `Fx15` LD DT, Vx -/
  | ldDtVx (x : RegIdx)
  /-- `Fx18` LD ST, Vx -/
  | ldStVx (x : RegIdx)
  /-- `Fx1E` ADD I, Vx -/
  | addI (x : RegIdx)
  /-- `Fx29` LD F, Vx -/
  | ldF (x : RegIdx)
  /-- `Fx33` LD B, Vx -/
  | ldB (x : RegIdx)
  /-- `Fx55` LD [I], Vx -/
  | stRegs (x : RegIdx)
  /-- `Fx65` LD Vx, [I] -/
  | ldRegs (x : RegIdx)
  deriving DecidableEq, Repr

/-- Why a sequence of bytes is no instruction: it is too short to hold a word, or its word is unrecognised, named by
the row of spec/30_encoding.md R103 it falls under. -/
inductive Reject where
  /-- Fewer than two bytes: no instruction word (R90). -/
  | truncated
  /-- Class 0 and neither 0x00E0 nor 0x00EE. -/
  | class0 (w : Word)
  /-- Class 5 with n ≠ 0. -/
  | class5 (w : Word)
  /-- Class 8 with n in 8, 9, A, B, C, D, F. -/
  | class8 (w : Word)
  /-- Class 9 with n ≠ 0. -/
  | class9 (w : Word)
  /-- Class E and kk neither 9E nor A1. -/
  | classE (w : Word)
  /-- Class F and kk none of 07, 0A, 15, 18, 1E, 29, 33, 55, 65. -/
  | classF (w : Word)
  deriving DecidableEq, Repr

end Sys2Proof
end

