-- ==== Sys2Proof/Config.lean ====
section
/-! DEFINITION. The fixed sizes of the hardware (spec/00_scope.md R5), the type of the three configuration Booleans
(R6), and the free value of the model: the byte the random source answers (spec/45_random.md R181). The numbers that
come from general knowledge (the entry address, the font bytes) are in Sys2Proof/Machine/Params.lean. -/

namespace Sys2Proof

/-- The three quirks, the configuration of a machine instance: fixed at construction, changed by no instruction, by no
reset and by no load, not readable by a program (spec/00_scope.md R6). -/
structure Quirks where
  /-- SHIFT_SRC_Y: `8xy6` and `8xyE` read register Y (true) or register X (false). -/
  shiftSrcY : Bool
  /-- SPRITE_WRAP: pixels of a sprite past an edge wrap (true) or are skipped (false). -/
  spriteWrap : Bool
  /-- MEMIO_INC_I: `Fx55` and `Fx65` increase the index register by X+1 afterwards (true) or leave it (false). -/
  memioIncI : Bool
  deriving DecidableEq, Repr

namespace Config

/-- MEM_SIZE: bytes of memory, addresses 0 to 4095. -/
abbrev memSize : Nat := 4096

/-- STACK_DEPTH: entries of the call stack. -/
abbrev stackDepth : Nat := 16

/-- DISP_W: columns of the display. -/
abbrev dispW : Nat := 64

/-- DISP_H: rows of the display. -/
abbrev dispH : Nat := 32

/-- GLYPH_BYTES: bytes of one glyph of the font. -/
abbrev glyphBytes : Nat := 5

/-- INSTR_BYTES: bytes of one instruction. -/
abbrev instrBytes : Nat := 2

/-- FREE VALUE (log 2). The byte the random source answers at its n-th draw since reset (spec/45_random.md R181): it
has no body, so no proof can know a byte of it, and a claim holds for every sequence of answers. -/
opaque randomByte : Nat → Byte

end Config

end Sys2Proof
end

