-- ==== Sys2Proof/Machine/Params.lean ====
section
/-! DEFINITION. The numbers of the hardware that come from general knowledge or from a default, kept in one place so
that a correction touches this file alone (spec/93_implementation_defined.md U18): the entry address, the font bytes,
the default of the quirks. -/

namespace Sys2Proof.Machine

/-- ENTRY, the program-entry address (spec/00_scope.md R5; UNVERIFIED, decision D2, log 4). -/
def entry : Nat := 0x200

/-- Glyphs 0 to 3 (spec/10_state.md R34; UNVERIFIED, decision D3, log 5). -/
def fontGlyphs0to3 : List Byte :=
  [0xF0, 0x90, 0x90, 0x90, 0xF0, 0x20, 0x60, 0x20, 0x20, 0x70, 0xF0, 0x10, 0xF0, 0x80, 0xF0, 0xF0, 0x10, 0xF0, 0x10, 0xF0]

/-- Glyphs 4 to 7. -/
def fontGlyphs4to7 : List Byte :=
  [0x90, 0x90, 0xF0, 0x10, 0x10, 0xF0, 0x80, 0xF0, 0x10, 0xF0, 0xF0, 0x80, 0xF0, 0x90, 0xF0, 0xF0, 0x10, 0x20, 0x40, 0x40]

/-- Glyphs 8 to B. -/
def fontGlyphs8toB : List Byte :=
  [0xF0, 0x90, 0xF0, 0x90, 0xF0, 0xF0, 0x90, 0xF0, 0x10, 0xF0, 0xF0, 0x90, 0xF0, 0x90, 0x90, 0xE0, 0x90, 0xE0, 0x90, 0xE0]

/-- Glyphs C to F. -/
def fontGlyphsCtoF : List Byte :=
  [0xF0, 0x80, 0x80, 0x80, 0xF0, 0xE0, 0x90, 0x90, 0x90, 0xE0, 0xF0, 0x80, 0xF0, 0x80, 0xF0, 0xF0, 0x80, 0xF0, 0x80, 0x80]

/-- FONT[0..79]: 16 glyphs of 5 bytes, glyph g at 5g (spec/10_state.md R34). -/
def font : List Byte := fontGlyphs0to3 ++ fontGlyphs4to7 ++ fontGlyphs8toB ++ fontGlyphsCtoF

/-- What an address that the memory list does not name reads as: the reset contents, FONT at 0..79 and 0 above
(spec/10_state.md R32). -/
def unlisted (a : Nat) : Byte := font.getD a 0

/-- The quirks of a machine that was constructed without naming them: the default of spec/00_scope.md R6
(DESIGN CHOICE, log 1). -/
def defaultQuirks : Quirks := { shiftSrcY := true, spriteWrap := false, memioIncI := true }

end Sys2Proof.Machine
end

