-- ==== Sys2Proof/Machine/State.lean ====
section
/-! DEFINITION. The state of the machine (spec/10_state.md R20 to R33), the ways an operation stops, and the state
after reset (R36). -/

namespace Sys2Proof.Machine

/-- Memory: (address, byte) pairs in one canonical form (`Memory.wf` in Machine/Ops.lean). An address that no pair
names reads as `unlisted`. -/
abbrev Memory := List Host.Cell

/-- The display buffer, 64 by 32 one-bit pixels (spec/10_state.md R31): row py, whose bit px is pixel (px, py), the
pixel of index px + 64*py (`Display.pixel` in Machine/Ops.lean). -/
abbrev Display := Vector (BitVec 64) 32

/-- The machine. The first eleven fields are the spec's state, in the order of spec/10_state.md R20. The last three are
the model's own: R38 names what each holds as no state of the machine (log 1, 2, 3). -/
structure State where
  /-- V[0]..V[15], the general registers; V[15] is also the flag register (R21, R22). -/
  v : Vector Byte 16
  /-- I, the index register (R23). -/
  i : Word
  /-- pc, the address of the next instruction to fetch (R24). -/
  pc : Word
  /-- SP, the number of return addresses on the stack (R25). -/
  sp : Byte
  /-- stack[0]..stack[15], the call stack, outside memory (R26). -/
  stack : Vector Word 16
  /-- DT, the delay timer (R27). -/
  dt : Byte
  /-- ST, the sound timer (R28). -/
  st : Byte
  /-- key[0]..key[15], bit i is key line i, 1 when active (R30). -/
  keys : BitVec 16
  /-- disp[0]..disp[2047], in 32 rows of 64 pixels (R31). -/
  disp : Display
  /-- mem[0]..mem[4095] (R32). -/
  mem : Memory
  /-- wait: `none`, or `some x` for the sub-state key(x) (R33). -/
  wait : Option RegIdx
  /-- The configuration of this machine instance (spec/00_scope.md R6). Nothing writes it. -/
  quirks : Quirks
  /-- How many bytes the random source has answered; it selects the next free value (spec/45_random.md R181). -/
  draws : Nat
  /-- The words of the diagnostic notifications sent to the host, newest first (spec/30_encoding.md R104). -/
  diags : List Word
  deriving DecidableEq, Repr

/-- The error conditions of spec/60_exceptions.md R230. A fault is the operation's outcome and commits nothing (R236);
stopping there is safe, since nothing is claimed about what the caller does next (R241). -/
inductive Fault where
  /-- Raised by CALL when SP = 16 (R231). Safe: the spec's own outcome. -/
  | stackOverflow
  /-- Raised by RET when SP = 0 (R232). Safe: the spec's own outcome. -/
  | stackUnderflow
  /-- Raised by the host operation load, never by a step, when the image is longer than 4096 - ENTRY (R234). Safe: the
  spec's own outcome. -/
  | imageTooLarge
  deriving DecidableEq, Repr

/-- Where the model gives no meaning. -/
inductive Refusal where
  /-- An instruction without a meaning yet, by its mnemonic; raised by `exec` alone. Safe: nothing is claimed. -/
  | notModelled (mnemonic : String)
  /-- CALL or RET with SP in 17..255, which the spec says never occurs (spec/10_state.md R25) and gives no effect.
  Raised by CALL and RET only. Safe: no operation produces such a state (log 8). -/
  | stackPointerOutOfRange
  deriving DecidableEq, Repr

/-- The machine right after reset (spec/10_state.md R36), with nothing loaded. The quirks are R6's default (log 1), no
byte has been drawn (log 2) and no notification sent (log 3). -/
def State.reset : State where
  v := Vector.replicate 16 0
  i := 0
  pc := BitVec.ofNat 16 entry
  sp := 0
  stack := Vector.replicate 16 0
  dt := 0
  st := 0
  keys := 0
  disp := Vector.replicate 32 0
  mem := []
  wait := none
  quirks := defaultQuirks
  draws := 0
  diags := []

end Sys2Proof.Machine
end

