-- ==== Sys2Proof/Machine/Ops.lean ====
section
/-! DEFINITION. The named operations over memory, registers, stack, instruction fetch and the host's channels, which
every meaning is built from (the primitives of spec/00_scope.md R11). -/

namespace Sys2Proof.Machine

/-- What one step answers. -/
abbrev Result := Host.Outcome State Fault Refusal

/-! Memory as data. -/

/-- The byte at an address: the one listed, else the reset contents. -/
def Memory.read : Memory → Nat → Byte
  | [], a => unlisted a
  | c :: m, a => if a = c.1 then c.2 else Memory.read m a

/-- The byte at address `a` becomes `b`, in canonical form: the list stays sorted, and a byte equal to what an unlisted
address reads as is not listed. -/
def Memory.write (a : Nat) (b : Byte) : Memory → Memory
  | [] => if b = unlisted a then [] else [(a, b)]
  | c :: m =>
    if a < c.1 then (if b = unlisted a then c :: m else (a, b) :: c :: m)
    else if a = c.1 then (if b = unlisted a then m else (a, b) :: m)
    else c :: Memory.write a b m

/-- Every listed address is at least `lo`, the addresses rise strictly, all are inside memory, and no listed byte is
what its address reads as unlisted. -/
def Memory.wfFrom : Nat → Memory → Bool
  | _, [] => true
  | lo, c :: m =>
    decide (lo ≤ c.1) && decide (c.1 < Config.memSize) && decide (c.2 ≠ unlisted c.1) && Memory.wfFrom (c.1 + 1) m

/-- The canonical form of memory. -/
def Memory.wf (m : Memory) : Bool := Memory.wfFrom 0 m

/-! General registers. Each has one home, the vector `v`. -/

/-- A register index is in 0..15. -/
theorem regIdx_lt (x : RegIdx) : x.toNat < 16 := x.isLt

/-- `V[x]`. -/
def State.reg (s : State) (x : RegIdx) : Byte := s.v[x.toNat]'(regIdx_lt x)

/-- `V[x] <- b`. -/
def State.setReg (s : State) (x : RegIdx) (b : Byte) : State := { s with v := s.v.set x.toNat b (regIdx_lt x) }

/-- `V[15] <- b`, the flag register (spec/10_state.md R22). -/
def State.setFlag (s : State) (b : Byte) : State := s.setReg 15 b

/-! Index register and program counter: every write reduces modulo 4096 (spec/00_scope.md R7; log 9). -/

/-- `I <- a mod 4096`. -/
def State.setI (s : State) (a : Nat) : State := { s with i := BitVec.ofNat 16 (a % Config.memSize) }

/-- `pc <- a mod 4096`. -/
def State.setPc (s : State) (a : Nat) : State := { s with pc := BitVec.ofNat 16 (a % Config.memSize) }

/-- `pc <- (pc + 2) mod 4096`: the fetch advance (spec/30_encoding.md R100), and once more in a taken skip
(spec/41_skip.md R129). -/
def State.advancePc (s : State) : State := s.setPc (s.pc.toNat + Config.instrBytes)

/-- Skips the next instruction when `c` holds (spec/41_skip.md R129). -/
def State.skipIf (s : State) (c : Bool) : State := if c then s.advancePc else s

/-! Timers. -/

/-- `DT <- b`. -/
def State.setDt (s : State) (b : Byte) : State := { s with dt := b }

/-- `ST <- b`. -/
def State.setSt (s : State) (b : Byte) : State := { s with st := b }

/-! Display, awaiting-key sub-state. -/

/-- `disp[p]`, the pixel of index p in 0..2047: column p mod 64, row p div 64 (spec/10_state.md R31). -/
def Display.pixel (d : Display) (p : Nat) : Bool := if h : p / 64 < 32 then d[p / 64].getLsbD (p % 64) else false

/-- `disp[p] <- disp[p] XOR 1`, for p in 0..2047. -/
def Display.toggle (d : Display) (p : Nat) : Display :=
  if h : p / 64 < 32 then d.set (p / 64) (d[p / 64] ^^^ BitVec.twoPow 64 (p % 64)) else d

/-- All pixels 0. -/
def Display.clear : Display := Vector.replicate 32 0

/-- The display buffer becomes `d`. -/
def State.setDisp (s : State) (d : Display) : State := { s with disp := d }

/-- `wait <- w`. -/
def State.setWait (s : State) (w : Option RegIdx) : State := { s with wait := w }

/-! Memory of the machine. Addresses are reduced modulo 4096 (spec/20_memory.md R63), no access faults (R64). -/

/-- `MemRead(a, 1)`. -/
def State.memRead (s : State) (a : Nat) : Byte := s.mem.read (a % Config.memSize)

/-- `MemWrite(a, 1, b)`. -/
def State.memWrite (s : State) (a : Nat) (b : Byte) : State :=
  { s with mem := Memory.write (a % Config.memSize) b s.mem }

/-- Writes the bytes at `a`, `a + 1`, ..., in increasing address order (spec/20_memory.md R71). -/
def State.storeBytes (s : State) (a : Nat) : List Byte → State
  | [] => s
  | b :: bs => (s.memWrite a b).storeBytes (a + 1) bs

/-! Call stack: storage of its own (spec/20_memory.md R61). -/

/-- `stack[k]`, for k in 0..15. -/
def State.stackSlot (s : State) (k : Nat) : Word := if h : k < 16 then s.stack[k] else 0

/-- Pushes `w`: `stack[SP] <- w; SP <- SP + 1`, for SP in 0..15 (spec/40_flow.md R122). -/
def State.push (s : State) (w : Word) : State :=
  { s with stack := s.stack.setIfInBounds s.sp.toNat w, sp := s.sp + 1 }

/-- Drops the newest entry: `SP <- SP - 1`; the entry keeps its content (spec/10_state.md R26; log 16). -/
def State.dropTop (s : State) : State := { s with sp := s.sp - 1 }

/-! Stopping. -/

/-- `raise f`: THE ONE WAY A FAULT IS TAKEN (spec/60_exceptions.md R236, R240). The operation's outcome is the fault and
nothing it did is kept: the caller keeps the state it had, pc included (log 15). This machine has no trap entry, no saved
register, no vector, no mode, and no return from a fault (R240, R241): control passes to the host. -/
def raise (f : Fault) : Result := .fault f

/-! Random source. -/

/-- `Rand()`: the byte the source answers next, a free value (spec/45_random.md R181; log 2). -/
def State.nextRandom (s : State) : Byte := Config.randomByte s.draws

/-- One byte has been drawn. -/
def State.countDraw (s : State) : State := { s with draws := s.draws + 1 }

/-! Instruction fetch. -/

/-- The two bytes of the instruction at pc, in address order (spec/20_memory.md R66, R68). -/
def fetchBytes (s : State) : List Byte := [s.memRead s.pc.toNat, s.memRead (s.pc.toNat + 1)]

/-- `MemRead(pc, 2)`, the instruction word at pc (spec/20_memory.md R66). -/
def fetchWord (s : State) : Word := wordOfBytes (s.memRead s.pc.toNat) (s.memRead (s.pc.toNat + 1))

/-- `Diag(w)`: the notification goes to the host (spec/30_encoding.md R104; DESIGN CHOICE, log 3). -/
def State.notifyHost (s : State) (w : Word) : State := { s with diags := w :: s.diags }

/-- The rest of a step whose word is unrecognised, pc already advanced: a no-op with a notification, never a fault
(spec/30_encoding.md R104; spec/60_exceptions.md R235). -/
def unrecognised (w : Word) (s : State) : Result := .next (s.notifyHost w)

/-- The state in which the bytes stand at pc and the next step fetches: not awaiting a key. -/
def placeAtPc (bs : List Byte) (s : State) : State := (s.storeBytes s.pc.toNat bs).setWait none

end Sys2Proof.Machine
end

