-- ==== Sys2Proof/Machine/Operands.lean ====
section
/-! DEFINITION. The operand forms (spec/30_encoding.md R93, R94): register operands, unsigned immediates, the key
index, the shift source, the sprite origin, the register range of the block transfers. -/

namespace Sys2Proof.Machine

/-- A register operand widened with zeros (`zext_16(V[x])`). -/
def zextReg (s : State) (x : RegIdx) : Nat := (s.reg x).toNat

/-- The key line an instruction inspects: `V[x] mod 16` (spec/47_keypad.md R203; UNVERIFIED, decision D11, log 14). -/
def keyIndex (s : State) (x : RegIdx) : Nat := (s.reg x).toNat % 16

/-- Whether key line `k` is active (spec/10_state.md R30). -/
def State.keyActive (s : State) (k : Nat) : Bool := s.keys.getLsbD k

/-- `scan()`: the lowest active key line, if any (spec/47_keypad.md R204; UNVERIFIED, decision D10, log 13). -/
def scanKeys (s : State) : Option Nat := (List.range 16).find? (fun k => s.keyActive k)

/-- The source of a shift: register Y or register X, by SHIFT_SRC_Y (spec/43_alu.md R158, R159). -/
def shiftSource (s : State) (x y : RegIdx) : Byte := if s.quirks.shiftSrcY then s.reg y else s.reg x

/-- The origin column of a sprite, `V[x] mod 64` (spec/46_display.md R187; UNVERIFIED, decision D19, log 21). -/
def spriteColumn (s : State) (x : RegIdx) : Nat := (s.reg x).toNat % Config.dispW

/-- The origin row of a sprite, `V[y] mod 32` (spec/46_display.md R187; UNVERIFIED, decision D19, log 21). -/
def spriteRow (s : State) (y : RegIdx) : Nat := (s.reg y).toNat % Config.dispH

/-- The register indices 0..x, in increasing order (spec/49_memio.md R221, R222). -/
def regRange (x : RegIdx) : List RegIdx := (List.range (x.toNat + 1)).map (fun k => BitVec.ofNat 4 k)

/-- What the block transfers do to I afterwards: `I + x + 1` by MEMIO_INC_I, else nothing (spec/49_memio.md R221, R222). -/
def State.bumpI (s : State) (x : RegIdx) : State :=
  if s.quirks.memioIncI then s.setI (s.i.toNat + x.toNat + 1) else s

end Sys2Proof.Machine
end

