-- ==== Sys2Proof/Machine/Flags.lean ====
section
/-! DEFINITION. Every value an instruction computes for the flag register (spec/10_state.md R22), and the results of
the arithmetic of class 8 (spec/43_alu.md R160). -/

namespace Sys2Proof.Machine

/-- 1 when the condition holds, else 0. -/
def flagOf (c : Bool) : Byte := if c then 1 else 0

/-- Carry of `a + b`: the unmodular sum exceeds 255 (R155). -/
def carryFlag (a b : Byte) : Byte := flagOf (decide (255 < a.toNat + b.toNat))

/-- No borrow in `a - b`: `a >= b` (R156). -/
def noBorrowFlag (a b : Byte) : Byte := flagOf (decide (b.toNat ≤ a.toNat))

/-- Bit 0 before a shift right (R158). -/
def shiftedOutRight (a : Byte) : Byte := flagOf (a.getLsbD 0)

/-- Bit 7 before a shift left (R159). -/
def shiftedOutLeft (a : Byte) : Byte := flagOf (a.getLsbD 7)

/-- `(a + b) mod 256` (R155; spec/42_load_add_imm.md R141). -/
def addBytes (a b : Byte) : Byte := BitVec.ofNat 8 (a.toNat + b.toNat)

/-- `(a - b) mod 256` (R156, R160): computed as an exact integer and narrowed. -/
def subBytes (a b : Byte) : Byte := BitVec.ofInt 8 ((a.toNat : Int) - (b.toNat : Int))

/-- `a >> 1`, logical (R158). -/
def shiftRightOne (a : Byte) : Byte := BitVec.ofNat 8 (a.toNat / 2)

/-- `(a << 1) mod 256` (R159). -/
def shiftLeftOne (a : Byte) : Byte := BitVec.ofNat 8 (a.toNat * 2)

/-- The write order of class 8: the result to `V[x]`, then the flag to `V[15]`, so that the flag remains when x is 15
(R150; UNVERIFIED, decision D8, log 11). The caller has computed both from the state before. -/
def State.setResultThenFlag (s : State) (x : RegIdx) (result flag : Byte) : State := (s.setReg x result).setFlag flag

end Sys2Proof.Machine
end

