-- ==== Sys2Proof/Machine/Alu.lean ====
section
/-! DEFINITION. Register-register ALU, class 8 (spec/43_alu.md). Both operands are read before either write (R150). -/

namespace Sys2Proof.Machine

/-- `8xy0` LD Vx, Vy (R151): the flag register is not written (UNVERIFIED, decision D18, log 20). -/
def execLdReg (x y : RegIdx) (s : State) : Result := .next (s.setReg x (s.reg y))

/-- `8xy1` OR Vx, Vy (R152). -/
def execOrReg (x y : RegIdx) (s : State) : Result := .next (s.setResultThenFlag x (s.reg x ||| s.reg y) 0)

/-- `8xy2` AND Vx, Vy (R153). -/
def execAndReg (x y : RegIdx) (s : State) : Result := .next (s.setResultThenFlag x (s.reg x &&& s.reg y) 0)

/-- `8xy3` XOR Vx, Vy (R154). -/
def execXorReg (x y : RegIdx) (s : State) : Result := .next (s.setResultThenFlag x (s.reg x ^^^ s.reg y) 0)

/-- `8xy4` ADD Vx, Vy (R155). -/
def execAddReg (x y : RegIdx) (s : State) : Result :=
  .next (s.setResultThenFlag x (addBytes (s.reg x) (s.reg y)) (carryFlag (s.reg x) (s.reg y)))

/-- `8xy5` SUB Vx, Vy (R156). -/
def execSubReg (x y : RegIdx) (s : State) : Result :=
  .next (s.setResultThenFlag x (subBytes (s.reg x) (s.reg y)) (noBorrowFlag (s.reg x) (s.reg y)))

/-- `8xy6` SHR Vx, Vy (R158), the source by SHIFT_SRC_Y. -/
def execShrReg (x y : RegIdx) (s : State) : Result :=
  .next (s.setResultThenFlag x (shiftRightOne (shiftSource s x y)) (shiftedOutRight (shiftSource s x y)))

/-- `8xy7` SUBN Vx, Vy (R157). -/
def execSubnReg (x y : RegIdx) (s : State) : Result :=
  .next (s.setResultThenFlag x (subBytes (s.reg y) (s.reg x)) (noBorrowFlag (s.reg y) (s.reg x)))

/-- `8xyE` SHL Vx, Vy (R159), the source by SHIFT_SRC_Y. -/
def execShlReg (x y : RegIdx) (s : State) : Result :=
  .next (s.setResultThenFlag x (shiftLeftOne (shiftSource s x y)) (shiftedOutLeft (shiftSource s x y)))

end Sys2Proof.Machine
end

