-- ==== Sys2Proof/Machine/Display.lean ====
section
/-! DEFINITION. Clear screen and sprite blit (spec/46_display.md). -/

namespace Sys2Proof.Machine

/-- The display buffer and whether a pixel has gone from 1 to 0 during this blit. -/
abbrev Blit := Display × Bool

/-- Where the pixel at column `px`, row `py` of an unreduced placement lands: wrapped modulo 64 and 32, or, when
clipping, nowhere if past an edge (R187). -/
def placedPixel (wrap : Bool) (px py : Nat) : Option Nat :=
  if wrap then some (px % Config.dispW + py % Config.dispH * Config.dispW)
  else if px < Config.dispW ∧ py < Config.dispH then some (px + py * Config.dispW)
  else none

/-- Toggles pixel `p`; it is a collision when the pixel was 1 (R187). -/
def togglePixel (d : Blit) (p : Nat) : Blit := (Display.toggle d.1 p, d.2 || Display.pixel d.1 p)

/-- One bit of a sprite row, column `col` from bit 7 (R187). -/
def blitBit (wrap : Bool) (ox y : Nat) (b : Byte) (d : Blit) (col : Nat) : Blit :=
  if b.getLsbD (7 - col) then
    match placedPixel wrap (ox + col) y with
    | some p => togglePixel d p
    | none => d
  else d

/-- One row of a sprite: its eight bits, most significant first (R187). -/
def blitRow (wrap : Bool) (ox y : Nat) (b : Byte) (d : Blit) : Blit :=
  (List.range 8).foldl (blitBit wrap ox y b) d

/-- The rows of a sprite, read at `I + r` (R187). -/
def blitRows (s : State) (ox oy n : Nat) : Blit :=
  (List.range n).foldl
    (fun d r => blitRow s.quirks.spriteWrap ox (oy + r) (s.memRead (s.i.toNat + r)) d) (s.disp, false)

/-- `00E0` CLS (R185). -/
def execCls (s : State) : Result := .next (s.setDisp Display.clear)

/-- `Dxyn` DRW Vx, Vy, n (R187). The origin is read before the flag is written (UNVERIFIED, decision D8, log 11). -/
def execDrw (x y : RegIdx) (n : Nibble) (s : State) : Result :=
  .next ((s.setDisp (blitRows s (spriteColumn s x) (spriteRow s y) n.toNat).1).setFlag
    (flagOf (blitRows s (spriteColumn s x) (spriteRow s y) n.toNat).2))

end Sys2Proof.Machine
end

