-- ==== Sys2Proof/Machine/Flow.lean ====
section
/-! DEFINITION. Control transfer (spec/40_flow.md). The pc already addresses the following instruction. -/

namespace Sys2Proof.Machine

/-- `00EE` RET (R120). A stack pointer in 17..255 never occurs (spec/10_state.md R25) and names no entry: refused
(log 8). -/
def execRet (s : State) : Result :=
  if s.sp.toNat = 0 then raise .stackUnderflow
  else if Config.stackDepth < s.sp.toNat then .refused .stackPointerOutOfRange
  else .next (s.dropTop.setPc (s.stackSlot (s.sp.toNat - 1)).toNat)

/-- `1nnn` JP nnn (R121). -/
def execJp (nnn : Addr) (s : State) : Result := .next (s.setPc nnn.toNat)

/-- `2nnn` CALL nnn (R122). The pushed value is pc as advanced by the fetch. A stack pointer in 17..255 never occurs
(spec/10_state.md R25): refused (log 8). -/
def execCall (nnn : Addr) (s : State) : Result :=
  if s.sp.toNat = Config.stackDepth then raise .stackOverflow
  else if Config.stackDepth < s.sp.toNat then .refused .stackPointerOutOfRange
  else .next ((s.push s.pc).setPc nnn.toNat)

/-- `Bnnn` JP V0, nnn (R123). -/
def execJpV0 (nnn : Addr) (s : State) : Result := .next (s.setPc (zextReg s 0 + nnn.toNat))

end Sys2Proof.Machine
end

