-- ==== Sys2Proof/Machine/Index.lean ====
section
/-! DEFINITION. The index register instructions (spec/44_index.md). -/

namespace Sys2Proof.Machine

/-- `Annn` LD I, nnn (R170). -/
def execLdI (nnn : Addr) (s : State) : Result := .next (s.setI nnn.toNat)

/-- `Fx1E` ADD I, Vx (R171): no flag. -/
def execAddI (x : RegIdx) (s : State) : Result := .next (s.setI (s.i.toNat + zextReg s x))

/-- `Fx29` LD F, Vx (R172): `V[x] * 5`, no mask on `V[x]`. -/
def execLdF (x : RegIdx) (s : State) : Result := .next (s.setI (zextReg s x * Config.glyphBytes))

end Sys2Proof.Machine
end

