-- ==== Sys2Proof/Machine/Keypad.lean ====
section
/-! DEFINITION. The keypad instructions and the step taken while awaiting a key (spec/47_keypad.md). -/

namespace Sys2Proof.Machine

/-- `Ex9E` SKP Vx (R200). -/
def execSkp (x : RegIdx) (s : State) : Result := .next (s.skipIf (s.keyActive (keyIndex s x)))

/-- `ExA1` SKNP Vx (R201). -/
def execSknp (x : RegIdx) (s : State) : Result := .next (s.skipIf (!s.keyActive (keyIndex s x)))

/-- `Fx0A` LD Vx, K, the step that fetches it (R202; shape of the wait: UNVERIFIED, decision D9, log 12). -/
def execLdVxK (x : RegIdx) (s : State) : Result :=
  match scanKeys s with
  | some k => .next (s.setReg x (BitVec.ofNat 8 k))
  | none => .next (s.setWait (some x))

/-- A step while `wait = key(x)`: nothing is fetched, pc stays, the keypad is checked again (R202;
spec/30_encoding.md R101). -/
def recheckKeys (x : RegIdx) (s : State) : Result :=
  match scanKeys s with
  | some k => .next ((s.setReg x (BitVec.ofNat 8 k)).setWait none)
  | none => .next s

end Sys2Proof.Machine
end

