-- ==== Sys2Proof/Machine/MemIo.lean ====
section
/-! DEFINITION. Memory transfer: BCD store, register block store and load (spec/49_memio.md). Addresses wrap. -/

namespace Sys2Proof.Machine

/-- The three decimal digits of a byte, hundreds first, each a binary byte (R220). -/
def bcdDigits (b : Byte) : List Byte :=
  [BitVec.ofNat 8 (b.toNat / 100), BitVec.ofNat 8 (b.toNat / 10 % 10), BitVec.ofNat 8 (b.toNat % 10)]

/-- `Fx33` LD B, Vx (R220). -/
def execLdB (x : RegIdx) (s : State) : Result := .next (s.storeBytes s.i.toNat (bcdDigits (s.reg x)))

/-- `Fx55` LD [I], Vx (R221): `V[0..x]` to `I..I+x`, then I moves by MEMIO_INC_I. -/
def execStRegs (x : RegIdx) (s : State) : Result :=
  .next ((s.storeBytes s.i.toNat ((regRange x).map (fun k => s.reg k))).bumpI x)

/-- The registers `V[k]` of the list loaded from `I + k` of the state before (R222). -/
def loadRegsFrom (s : State) (ks : List RegIdx) : State :=
  ks.foldl (fun t k => t.setReg k (s.memRead (s.i.toNat + k.toNat))) s

/-- `Fx65` LD Vx, [I] (R222): `V[0..x]` from `I..I+x`, then I moves by MEMIO_INC_I. -/
def execLdRegs (x : RegIdx) (s : State) : Result := .next ((loadRegsFrom s (regRange x)).bumpI x)

end Sys2Proof.Machine
end

