-- ==== Sys2Proof/Machine/Random.lean ====
section
/-! DEFINITION. The random number instruction (spec/45_random.md). -/

namespace Sys2Proof.Machine

/-- The effect of RND once the source has answered `r` (R180). -/
def rndWith (r : Byte) (x : RegIdx) (kk : Byte) (s : State) : State := s.countDraw.setReg x (r &&& kk)

/-- `Cxkk` RND Vx, kk (R180): exactly one byte is drawn; which byte is free (R181; log 2). -/
def execRnd (x : RegIdx) (kk : Byte) (s : State) : Result := .next (rndWith s.nextRandom x kk s)

end Sys2Proof.Machine
end

