-- ==== Sys2Proof/Machine/Step.lean ====
section
/-! DEFINITION. One step (spec/30_encoding.md R100, R101; spec/60_exceptions.md R250), and placing an instruction where
the next step fetches it. -/

namespace Sys2Proof.Machine

/-- The operation `step`. Awaiting a key, it re-checks the keypad and fetches nothing (R101). Otherwise it fetches the
word at pc, advances pc by 2, and runs the instruction, or notifies the host of an unrecognised word (R100, R104). -/
def step (s : State) : Host.Outcome State Fault Refusal :=
  match s.wait with
  | some x => recheckKeys x s
  | none =>
    match decode (fetchBytes s) with
    | .ok (i, _) => exec i s.advancePc
    | .error _ => unrecognised (fetchWord s) s.advancePc

/-- The instruction whose table word is `w`, stored where `step` fetches next; the machine is not awaiting a key. It
stands for the host operation `load` (spec/70_reset_and_hazards.md R272; log 26). -/
def State.withFetchWord (s : State) (nbits w : Nat) : State := placeAtPc (bytesOfWord (tableWord nbits w)) s

end Sys2Proof.Machine
end

