-- ==== Sys2Proof/Machine/HostOps.lean ====
section
/-! DEFINITION. The host's operations at the core's boundary other than `step` (spec/60_exceptions.md R258). Each is
atomic and falls between two steps (spec/20_memory.md R74). -/

namespace Sys2Proof.Machine

/-- `reset` (spec/70_reset_and_hazards.md R270): every element of the spec's state to its reset value, whatever the
state before. The quirks and the random source are not changed, and notifications already sent stay sent. -/
def resetState (s : State) : State := { State.reset with quirks := s.quirks, draws := s.draws, diags := s.diags }

/-- The longest image: `4096 - ENTRY` bytes (R272). -/
def maxImage : Nat := Config.memSize - entry

/-- `tick` on one timer: down by 1, floored at 0 (spec/60_exceptions.md R251). -/
def tickTimer (b : Byte) : Byte := BitVec.ofNat 8 (b.toNat - 1)

/-- `reset()`: always succeeds. -/
def hostReset (s : State) : Result := .next (resetState s)

/-- `load(image)` (R272): reset, then the image copied to ENTRY upward; too long, it raises ImageTooLarge and nothing
changes (log 22). -/
def hostLoad (image : List Byte) (s : State) : Result :=
  if maxImage < image.length then raise .imageTooLarge
  else .next ((resetState s).storeBytes entry image)

/-- `tick()` (spec/60_exceptions.md R251): both timers in the same tick, nothing else. -/
def hostTick (s : State) : Result := .next ((s.setDt (tickTimer s.dt)).setSt (tickTimer s.st))

/-- `set_keys(k)` (spec/60_exceptions.md R252): the sixteen lines, nothing else. -/
def hostSetKeys (k : BitVec 16) (s : State) : Result := .next { s with keys := k }

/-- The host's read of the display: a snapshot, no change (spec/60_exceptions.md R253). -/
def readDisplay (s : State) : Display := s.disp

/-- The host's read of the sound timer: no change (spec/60_exceptions.md R254). -/
def readSound (s : State) : Byte := s.st

/-- The tone condition, `ST ≠ 0` (spec/60_exceptions.md R254). -/
def toneOn (s : State) : Bool := readSound s != 0

/-- What can happen to the machine next: a step, or one of the host's operations (spec/60_exceptions.md R258). The two
reads and the random source's answer change nothing of the machine and so are no event of their own. -/
inductive Event where
  | step
  | reset
  | load (image : List Byte)
  | tick
  | setKeys (k : BitVec 16)
  deriving DecidableEq, Repr

/-- The outcome of an event. -/
def act (e : Event) (s : State) : Result :=
  match e with
  | .step => Sys2Proof.Machine.step s
  | .reset => hostReset s
  | .load image => hostLoad image s
  | .tick => hostTick s
  | .setKeys k => hostSetKeys k s

end Sys2Proof.Machine
end

