-- ==== Sys2Proof/Machine/Run.lean ====
section
/-! DEFINITION. A run under a host schedule, and what ends it (spec/60_exceptions.md R262). The spec leaves the end of a
run open: it is the parameter END_OF_RUN, an argument here (decision D23; spec/93_implementation_defined.md U17;
log 25). -/

namespace Sys2Proof.Machine

/-- END_OF_RUN: which states a run ends in. It is an argument of a run and no part of the state. -/
abbrev EndOfRun := State → Bool

/-- No state ends the run: it goes on until a step faults or the host stops (R262). -/
def neverEnds : EndOfRun := fun _ => false

/-- The END_OF_RUN that decision D23 suggests: `wait = none` and pc addresses a `1nnn` whose nnn is its own address
(UNVERIFIED, decision D23, log 25). A faulting step ends a run under every END_OF_RUN (`runEvents`). -/
def selfJump : EndOfRun := fun s =>
  match s.wait, decodeWord (fetchWord s) with
  | none, .ok (.jp nnn) => nnn.toNat == s.pc.toNat
  | _, _ => false

/-- How a run comes out, with the state the caller then holds. -/
inductive RunOutcome where
  /-- The run has ended: END_OF_RUN holds of this state, the first of the run of which it does. -/
  | ended (s : State)
  /-- The run has ended: the next step faults, and commits nothing (R236). -/
  | faulted (f : Fault) (s : State)
  /-- The host's events are used up: the host has stopped, and the run has not ended. -/
  | stopped (s : State)
  /-- The model gives the next event no meaning. -/
  | refused (r : Refusal) (s : State)
  deriving DecidableEq, Repr

/-- The run from `s` under the events of a host schedule, END_OF_RUN asked of every state, the first and the last among
them. A failing load changes nothing and ends no run: only a faulting step does (R262; spec/70_reset_and_hazards.md
R272). -/
def runEvents (endOfRun : EndOfRun) : List Event → State → RunOutcome
  | [], s => if endOfRun s then .ended s else .stopped s
  | e :: es, s =>
    if endOfRun s then .ended s
    else match act e s with
      | .next t => runEvents endOfRun es t
      | .fault .imageTooLarge => runEvents endOfRun es s
      | .fault f => .faulted f s
      | .refused r => .refused r s

end Sys2Proof.Machine
end

