-- ==== Sys2Proof/Safety.lean ====
section
/-! DEFINITION. The terms claims use: what a safe step is, the invariant of spec/10_state.md R35, what a state may
have in common with another (frames), and the placed mask of a sprite (spec/46_display.md R188). -/

namespace Sys2Proof.Machine

/-- A safe step: it answers a next state. -/
def Safe (s : State) : Prop := ∃ t, step s = .next t

/-- `n` safe steps one after another, with no host operation between them, or fewer when the run ends before
(spec/60_exceptions.md R262; log 25). -/
def SafeRun (endOfRun : EndOfRun) : Nat → State → Prop
  | 0, _ => True
  | n + 1, s => endOfRun s = true ∨ ∃ t, step s = .next t ∧ SafeRun endOfRun n t

/-- The invariants of spec/10_state.md R35 that the fields' types do not give already, and the
canonical form of the memory list, which is the model's own (log 28). -/
structure MachineInv (s : State) : Prop where
  /-- I in 0..4095. -/
  i_lt : s.i.toNat < 4096
  /-- pc in 0..4095. -/
  pc_lt : s.pc.toNat < 4096
  /-- SP in 0..16. -/
  sp_le : s.sp.toNat ≤ 16
  /-- Every stack entry in 0..4095. -/
  stack_lt : ∀ k, k < 16 → (s.stackSlot k).toNat < 4096
  /-- The memory list is in canonical form: no rule of the spec but the model's own (log 28). -/
  mem_wf : s.mem.wf = true

/-- A machine that was constructed with some quirks and then reset, and whatever events followed
(spec/70_reset_and_hazards.md R273): every interleaving of steps and host operations is a run. It takes no END_OF_RUN: the
states of a run that ends sooner are among these, whatever ends it. -/
inductive Reachable : State → Prop where
  | reset (q : Quirks) (n : Nat) (ds : List Word) :
      Reachable { State.reset with quirks := q, draws := n, diags := ds }
  | event {s t : State} (e : Event) (hs : Reachable s) (h : act e s = .next t) : Reachable t

/-! Frames. -/

/-- The pieces of the machine, as spec/10_state.md R20 lists them, and the model's own three. -/
inductive Part where
  | regs | index | pc | sp | stack | dt | st | keys | disp | mem | wait | quirks | draws | diags
  deriving DecidableEq, Repr

/-- The two states agree on a piece. Memory is compared through the read of one byte, at every address. -/
def Part.Same : Part → State → State → Prop
  | .regs, s, t => ∀ r, t.reg r = s.reg r
  | .index, s, t => t.i = s.i
  | .pc, s, t => t.pc = s.pc
  | .sp, s, t => t.sp = s.sp
  | .stack, s, t => ∀ k, k < 16 → t.stackSlot k = s.stackSlot k
  | .dt, s, t => t.dt = s.dt
  | .st, s, t => t.st = s.st
  | .keys, s, t => t.keys = s.keys
  | .disp, s, t => t.disp = s.disp
  | .mem, s, t => ∀ a, t.memRead a = s.memRead a
  | .wait, s, t => t.wait = s.wait
  | .quirks, s, t => t.quirks = s.quirks
  | .draws, s, t => t.draws = s.draws
  | .diags, s, t => t.diags = s.diags

/-- From `s` to `t` no piece changed but, at most, those listed. -/
def OnlyChanges (ps : List Part) (s t : State) : Prop := ∀ p, p ∉ ps → p.Same s t

/-- No general register changed but, at most, those listed. -/
def RegsSameBut (rs : List RegIdx) (s t : State) : Prop := ∀ r, r ∉ rs → t.reg r = s.reg r

/-- The general registers an instruction may write: its destination, and V[15] for the side-effect writers of
spec/10_state.md R22. -/
def writesReg : Instr → RegIdx → Bool
  | .ldImm x _, r => r == x
  | .addImm x _, r => r == x
  | .ldReg x _, r => r == x
  | .orReg x _, r => r == x || r == 15
  | .andReg x _, r => r == x || r == 15
  | .xorReg x _, r => r == x || r == 15
  | .addReg x _, r => r == x || r == 15
  | .subReg x _, r => r == x || r == 15
  | .shrReg x _, r => r == x || r == 15
  | .subnReg x _, r => r == x || r == 15
  | .shlReg x _, r => r == x || r == 15
  | .rnd x _, r => r == x
  | .drw _ _ _, r => r == 15
  | .ldVxDt x, r => r == x
  | .ldVxK x, r => r == x
  | .ldRegs x, r => decide (r.toNat ≤ x.toNat)
  | .cls, _ | .ret, _ | .jp _, _ | .call _, _ | .seImm _ _, _ | .sneImm _ _, _ | .seReg _ _, _ | .sneReg _ _, _
  | .ldI _, _ | .jpV0 _, _ | .skp _, _ | .sknp _, _ | .ldDtVx _, _ | .ldStVx _, _ | .addI _, _ | .ldF _, _
  | .ldB _, _ | .stRegs _, _ => false

/-! Sprites. -/

/-- Where the unreduced column `px` and row `py` of a sprite land: `p` is the index of that pixel, under wrapping
(spec/46_display.md R187) or, clipping, when it is inside the buffer. -/
def LandsOn (wrap : Bool) (px py p : Nat) : Prop :=
  if wrap then p = px % 64 + py % 32 * 64 else px < 64 ∧ py < 32 ∧ p = px + py * 64

/-- THE PLACED MASK of a sprite of `n` rows at I, its origin at column `ox`, row `oy`: pixel `p` has a 1 bit of the
sprite placed on it (spec/46_display.md R188). -/
def PlacedMask (s : State) (ox oy n p : Nat) : Prop :=
  ∃ r col, r < n ∧ col < 8 ∧ (s.memRead (s.i.toNat + r)).getLsbD (7 - col) = true ∧
    LandsOn s.quirks.spriteWrap (ox + col) (oy + r) p

end Sys2Proof.Machine
end

