-- ==== Sys2Proof/Certificates/Slice0/Obligations.lean ====
section
/-! DEFINITION. The statements for the provers. Each docstring names the rule of spec/ it formalises. A statement about
`exec` is about the state whose pc is already past the instruction (spec/30_encoding.md R100). Where a clause rests on a
decision the spec marks as its own, the docstring names the decision (D<n> of spec/92_eei_decisions.md) and the log
entry. The digits of the words in every statement are those of the rule's own Encoding line and of R98; R97 marks all but
`8xy4` and `8xy5` as general knowledge (D6, log 7). Addresses, I and pc wrap modulo 4096 (R7; D5, log 9). A premise `mem.wf = true` is the
canonical form of the memory list, the model's own (log 28). -/

open Sys2Proof Sys2Proof.Machine

/-! ## Encoding -/

/-- R90, R92, R94, R98: decoding the bytes of any instruction, whatever follows them, gives that instruction, with every
operand at every value, and leaves what follows (byte order D1, log 6; opcode numbers D6, log 7). -/
def Obligations.DecodeInvertsEncode : Prop :=
  ∀ (i : Instr) (rest : List Byte), decode (encode i ++ rest) = .ok (i, rest)

/-- R94, R96, R98, read with the fields of R92: no bit of a recognised word is dropped: the decoded instruction encodes
to the word it came from. That a word is recognised only when every fixed digit matches, so that 0x5121 or 0x01E0 is not
decoded with a bit dropped, is the spec's own decision D7 (R96; log 10). -/
def Obligations.EncodeInvertsDecode : Prop :=
  ∀ (w : Word) (i : Instr), decodeWord w = .ok i → encodeWord i = w

/-- R96: a word decodes exactly when it matches one of the 34 rows of R98 in every fixed digit (D7, log 10), and then
it matches the row of the instruction it decodes to. -/
def Obligations.DecodeAcceptsExactlyTheOpcodeMap : Prop :=
  (∀ w : Word, (∃ i, decodeWord w = .ok i) ↔ ∃ r ∈ opcodeMap, w &&& r.mask = r.bits) ∧
  (∀ (w : Word) (i : Instr), decodeWord w = .ok i → w &&& i.row.mask = i.row.bits)

/-- R103: the unrecognised words, class by class, each rejected under its class's name (D7, log 10). -/
def Obligations.UnrecognisedWordsByClass : Prop :=
  ∀ w : Word,
    (decodeWord w = .error (.class0 w) ↔ w.toNat / 4096 = 0 ∧ w.toNat ≠ 0x00E0 ∧ w.toNat ≠ 0x00EE) ∧
    (decodeWord w = .error (.class5 w) ↔ w.toNat / 4096 = 5 ∧ w.toNat % 16 ≠ 0) ∧
    (decodeWord w = .error (.class8 w) ↔ w.toNat / 4096 = 8 ∧ w.toNat % 16 ∈ [8, 9, 10, 11, 12, 13, 15]) ∧
    (decodeWord w = .error (.class9 w) ↔ w.toNat / 4096 = 9 ∧ w.toNat % 16 ≠ 0) ∧
    (decodeWord w = .error (.classE w) ↔ w.toNat / 4096 = 14 ∧ w.toNat % 256 ∉ [0x9E, 0xA1]) ∧
    (decodeWord w = .error (.classF w) ↔
      w.toNat / 4096 = 15 ∧ w.toNat % 256 ∉ [0x07, 0x0A, 0x15, 0x18, 0x1E, 0x29, 0x33, 0x55, 0x65]) ∧
    (w.toNat / 4096 ∉ [0, 5, 8, 9, 14, 15] → ∃ i, decodeWord w = .ok i)

/-- R98, spec/95_test_vectors.md T-E1 to T-E26: words written out from the spec decode to the instructions they stand
for, one or more of every family, the high byte first. -/
def Obligations.SpecWordsDecode : Prop :=
  decode [0x00, 0xEE] = .ok (.ret, []) ∧ decode [0x10, 0x00] = .ok (.jp 0x000, []) ∧
  decode [0xBF, 0xFF] = .ok (.jpV0 0xFFF, []) ∧ decode [0x51, 0x20] = .ok (.seReg 1 2, []) ∧
  decode [0x9A, 0xB0] = .ok (.sneReg 0xA 0xB, []) ∧ decode [0x60, 0x0A] = .ok (.ldImm 0 0x0A, []) ∧
  decode [0x8A, 0xB4] = .ok (.addReg 0xA 0xB, []) ∧ decode [0x81, 0x2E] = .ok (.shlReg 1 2, []) ∧
  decode [0xA2, 0x04] = .ok (.ldI 0x204, []) ∧ decode [0xC1, 0x0F] = .ok (.rnd 1 0x0F, []) ∧
  decode [0x00, 0xE0] = .ok (.cls, []) ∧ decode [0xD1, 0x2A] = .ok (.drw 1 2 10, []) ∧
  decode [0xE1, 0x9E] = .ok (.skp 1, []) ∧ decode [0xF2, 0x0A] = .ok (.ldVxK 2, []) ∧
  decode [0xF0, 0x07] = .ok (.ldVxDt 0, []) ∧ decode [0xFF, 0x65] = .ok (.ldRegs 15, [])

/-! ## The step -/

/-- R100, R66: not awaiting a key, when the bytes at pc and pc + 1 (modulo 4096), the first one high (D1, log 6), decode
to an instruction, a step is `exec` of that instruction on the state whose pc alone is advanced by 2 modulo 4096. -/
def Obligations.StepRunsDecodedInstruction : Prop :=
  ∀ (s : State) (i : Instr), s.wait = none →
    decodeWord (s.memRead s.pc.toNat ++ s.memRead (s.pc.toNat + 1)) = .ok i →
    step s = exec i { s with pc := BitVec.ofNat 16 ((s.pc.toNat + 2) % 4096) }

/-- R104: an unrecognised word advances pc by 2, notifies the host with the word (D22, log 3), changes no other state and
is no fault. -/
def Obligations.UnrecognisedWordIsNoOp : Prop :=
  ∀ (s : State) (e : Reject), s.wait = none →
    decodeWord (s.memRead s.pc.toNat ++ s.memRead (s.pc.toNat + 1)) = .error e →
    ∃ t, step s = .next t ∧ t.pc.toNat = (s.pc.toNat + 2) % 4096 ∧
      t.diags = (s.memRead s.pc.toNat ++ s.memRead (s.pc.toNat + 1)) :: s.diags ∧ OnlyChanges [.pc, .diags] s t

/-- R101, R202, R204: a step while awaiting a key for register x fetches nothing and answers a next state: the same
state when no line is active, else the state in which V[x] is the lowest active line (D10, log 13), the wait is over and
nothing else has changed, pc included (D9, log 12). -/
def Obligations.AwaitingKeyStepRechecksKeypad : Prop :=
  ∀ (s : State) (x : RegIdx), s.wait = some x →
    ((∀ k, k < 16 → s.keyActive k = false) → step s = .next s) ∧
    (∀ k, k < 16 → s.keyActive k = true → (∀ j, j < k → s.keyActive j = false) →
      ∃ t, step s = .next t ∧ (t.reg x).toNat = k ∧ t.wait = none ∧ RegsSameBut [x] s t ∧
        OnlyChanges [.regs, .wait] s t)

/-- R231, R232, R230: an instruction faults exactly so: StackUnderflow is raised by RET exactly when SP = 0,
StackOverflow by CALL exactly when SP = 16, and ImageTooLarge by no instruction. -/
def Obligations.FaultsRaisedExactly : Prop :=
  ∀ (i : Instr) (s : State),
    (exec i s = .fault .stackUnderflow ↔ i = .ret ∧ s.sp.toNat = 0) ∧
    (exec i s = .fault .stackOverflow ↔ (∃ nnn, i = .call nnn) ∧ s.sp.toNat = 16) ∧
    exec i s ≠ .fault .imageTooLarge

/-- R250, R105, R235: from every state whose stack pointer is in 0..16, a step answers a next state or one of the two
stack faults; it never refuses. -/
def Obligations.StepAnswersNextOrStackFault : Prop :=
  ∀ s : State, s.sp.toNat ≤ 16 →
    Safe s ∨ step s = .fault .stackOverflow ∨ step s = .fault .stackUnderflow

/-- R75, R66, R67: a word stored at pc, high byte first (D1, log 6), is the word the next step runs, at any pc, odd or
at the end of memory: nothing stands between a store and the fetch (D16, D17, log 18, 19). -/
def Obligations.StoredWordIsFetched : Prop :=
  ∀ (s : State) (w : Word) (i : Instr), s.mem.wf = true → s.wait = none → decodeWord w = .ok i →
    step (s.storeBytes s.pc.toNat [w.extractLsb' 8 8, w.extractLsb' 0 8]) =
      exec i ((s.storeBytes s.pc.toNat [w.extractLsb' 8 8, w.extractLsb' 0 8]).setPc (s.pc.toNat + 2))

/-! ## Invariants and rules of the whole machine -/

/-- R35: a step keeps the invariants I and pc in 0..4095, SP in 0..16, stack entries in 0..4095; and, with them, the
canonical form of the memory list, which is no rule of the spec but the model's own choice (log 28). From every state that
meets them, not only from those a run reaches. -/
def Obligations.StepKeepsInvariant : Prop :=
  ∀ s t : State, MachineInv s → step s = .next t → MachineInv t

/-- R35, R36: the machine right after reset meets the invariants, among them the canonical form of the memory list, the
model's own choice (log 28), whatever its quirks and however much was drawn or sent. -/
def Obligations.ResetMeetsInvariant : Prop :=
  ∀ (q : Quirks) (n : Nat) (ds : List Word), MachineInv { State.reset with quirks := q, draws := n, diags := ds }

/-- R35, R258: every host operation (reset, load of any image, tick, set_keys) keeps the invariants, among them the
canonical form of the memory list, the model's own choice (log 28). -/
def Obligations.HostOperationsKeepInvariant : Prop :=
  ∀ (e : Event) (s t : State), e ≠ .step → MachineInv s → act e s = .next t → MachineInv t

/-- R35, R258, R273: every state of every run, under every quirk setting and every interleaving of steps and host
operations (log 23, 24), meets the invariants, among them the canonical form of the memory list, the model's own choice
(log 28). -/
def Obligations.ReachableStatesMeetInvariant : Prop :=
  ∀ s : State, Reachable s → MachineInv s

/-- R6, R30, R252: no step changes a key line, and neither a step nor a host operation changes a quirk. -/
def Obligations.NoStepChangesKeysNoEventChangesQuirks : Prop :=
  (∀ s t : State, step s = .next t → t.keys = s.keys) ∧
  (∀ (e : Event) (s t : State), act e s = .next t → t.quirks = s.quirks)

/-- R27, R28, R245: among the instructions only LD DT, Vx changes the delay timer and only LD ST, Vx the sound timer. -/
def Obligations.TimersWrittenOnlyByTheirLoads : Prop :=
  ∀ (i : Instr) (s t : State), exec i s = .next t →
    ((∀ x, i ≠ .ldDtVx x) → t.dt = s.dt) ∧ ((∀ x, i ≠ .ldStVx x) → t.st = s.st)

/-- R68, R69: no instruction but LD B, Vx and LD [I], Vx changes any byte of memory. -/
def Obligations.MemoryWrittenOnlyByStores : Prop :=
  ∀ (i : Instr) (s t : State), exec i s = .next t → (∀ x, i ≠ .ldB x) → (∀ x, i ≠ .stRegs x) →
    ∀ a, t.memRead a = s.memRead a

/-- R31, R190: no instruction but CLS and DRW changes the display. -/
def Obligations.DisplayWrittenOnlyByClearAndDraw : Prop :=
  ∀ (i : Instr) (s t : State), exec i s = .next t → i ≠ .cls → (∀ x y n, i ≠ .drw x y n) → t.disp = s.disp

/-- R21, R22: an instruction changes no general register but those the spec lets it write: its destination, V[0..x] for
LD Vx, [I], and V[15] for the side-effect writers of R22's table and no other instruction. That LD Vx, Vy is none of those
writers is the spec's own decision D18 (R151; log 20). -/
def Obligations.RegistersWrittenOnlyAsListed : Prop :=
  ∀ (i : Instr) (s t : State) (r : RegIdx), exec i s = .next t → writesReg i r = false → t.reg r = s.reg r

/-- R23, R25, R26: I is changed only by LD I, ADD I, LD F and, when MEMIO_INC_I, the two block transfers; SP only by CALL
and RET; a stack entry only by CALL. That RET leaves the popped entry as it was is the spec's own decision D14 (R26;
log 16). -/
def Obligations.IndexAndStackWrittenOnlyAsListed : Prop :=
  ∀ (i : Instr) (s t : State), exec i s = .next t →
    ((∀ nnn, i ≠ .ldI nnn) → (∀ x, i ≠ .addI x) → (∀ x, i ≠ .ldF x) →
      (s.quirks.memioIncI = true → (∀ x, i ≠ .stRegs x) ∧ (∀ x, i ≠ .ldRegs x)) → t.i = s.i) ∧
    ((∀ nnn, i ≠ .call nnn) → i ≠ .ret → t.sp = s.sp) ∧
    ((∀ nnn, i ≠ .call nnn) → ∀ k, k < 16 → t.stackSlot k = s.stackSlot k)

/-- R102, R24: an instruction that is no jump, call, return or skip leaves pc at the address after it; a skip leaves it
there or 2 further, modulo 4096. That LD Vx, K leaves it there, key or no key, is part of the spec's own decision D9
(log 12). -/
def Obligations.PcRedirectedOnlyAsListed : Prop :=
  ∀ (i : Instr) (s t : State), exec i s = .next t → i ≠ .ret → (∀ nnn, i ≠ .jp nnn) → (∀ nnn, i ≠ .call nnn) →
    (∀ nnn, i ≠ .jpV0 nnn) →
    t.pc = s.pc ∨
      (((∃ x kk, i = .seImm x kk ∨ i = .sneImm x kk) ∨ (∃ x y, i = .seReg x y ∨ i = .sneReg x y) ∨
        (∃ x, i = .skp x ∨ i = .sknp x)) ∧ t.pc.toNat = (s.pc.toNat + 2) % 4096)

/-! ## Control transfer -/

/-- R120, R26: `00EE` is RET; with SP = 0 it raises StackUnderflow; otherwise it completes: SP goes down by 1, pc is the
entry at the new SP, nothing else changes. That the popped entry keeps its content is the spec's own decision D14 (R26;
log 16). -/
def Obligations.RetPopsReturnAddress : Prop :=
  decodeWord 0x00EE#16 = .ok .ret ∧
  ∀ s : State, (s.sp.toNat = 0 → exec .ret s = .fault .stackUnderflow) ∧
    (MachineInv s → 0 < s.sp.toNat →
      ∃ t, exec .ret s = .next t ∧ t.sp.toNat + 1 = s.sp.toNat ∧ t.pc = s.stackSlot t.sp.toNat ∧
        OnlyChanges [.pc, .sp] s t)

/-- R121: `1nnn` is JP nnn; pc becomes nnn, nothing else changes. -/
def Obligations.JpSetsPc : Prop :=
  ∀ nnn : Addr, decodeWord (0x1#4 ++ nnn) = .ok (.jp nnn) ∧
    ∀ s : State, ∃ t, exec (.jp nnn) s = .next t ∧ t.pc.toNat = nnn.toNat ∧ OnlyChanges [.pc] s t

/-- R122: `2nnn` is CALL nnn; with SP = 16 it raises StackOverflow; with SP in 0..15 it completes: the entry at SP is the
pc after the CALL, SP goes up by 1, pc becomes nnn, no other entry and nothing else changes. -/
def Obligations.CallPushesReturnAddress : Prop :=
  ∀ nnn : Addr, decodeWord (0x2#4 ++ nnn) = .ok (.call nnn) ∧
    ∀ s : State, (s.sp.toNat = 16 → exec (.call nnn) s = .fault .stackOverflow) ∧
      (s.sp.toNat < 16 →
        ∃ t, exec (.call nnn) s = .next t ∧ t.stackSlot s.sp.toNat = s.pc ∧ t.sp.toNat = s.sp.toNat + 1 ∧
          t.pc.toNat = nnn.toNat ∧ (∀ k, k < 16 → k ≠ s.sp.toNat → t.stackSlot k = s.stackSlot k) ∧
          OnlyChanges [.pc, .sp, .stack] s t)

/-- R123: `Bnnn` is JP V0, nnn; pc becomes (V[0] + nnn) modulo 4096, nothing else changes. -/
def Obligations.JpV0AddsOffset : Prop :=
  ∀ nnn : Addr, decodeWord (0xB#4 ++ nnn) = .ok (.jpV0 nnn) ∧
    ∀ s : State, ∃ t, exec (.jpV0 nnn) s = .next t ∧ t.pc.toNat = ((s.reg 0).toNat + nnn.toNat) % 4096 ∧
      OnlyChanges [.pc] s t

/-- R124: a step that runs a CALL at address a with SP < 16 and then a step that runs the RET at its target end with
pc = (a + 2) modulo 4096, SP as before, and the return address as dead content in the entry. -/
def Obligations.CallThenReturnRestores : Prop :=
  ∀ (s : State) (nnn : Addr), MachineInv s → s.wait = none → s.sp.toNat < 16 →
    decodeWord (s.memRead s.pc.toNat ++ s.memRead (s.pc.toNat + 1)) = .ok (.call nnn) →
    decodeWord (s.memRead nnn.toNat ++ s.memRead (nnn.toNat + 1)) = .ok .ret →
    ∃ t u, step s = .next t ∧ step t = .next u ∧ u.pc.toNat = (s.pc.toNat + 2) % 4096 ∧ u.sp = s.sp ∧
      (u.stackSlot s.sp.toNat).toNat = (s.pc.toNat + 2) % 4096 ∧
      (∀ k, k < 16 → k ≠ s.sp.toNat → u.stackSlot k = s.stackSlot k) ∧ OnlyChanges [.pc, .stack] s u

/-! ## Skips -/

/-- R130, R131: `3xkk` is SE Vx, kk, `4xkk` is SNE Vx, kk; pc goes 2 further (modulo 4096) exactly when V[x] = kk,
respectively V[x] ≠ kk, and otherwise stays; nothing else changes. -/
def Obligations.SkipOnImmediate : Prop :=
  ∀ (x : RegIdx) (kk : Byte),
    decodeWord (0x3#4 ++ x ++ kk) = .ok (.seImm x kk) ∧ decodeWord (0x4#4 ++ x ++ kk) = .ok (.sneImm x kk) ∧
    ∀ s : State,
      (∃ t, exec (.seImm x kk) s = .next t ∧ OnlyChanges [.pc] s t ∧
        t.pc.toNat = if s.reg x = kk then (s.pc.toNat + 2) % 4096 else s.pc.toNat) ∧
      (∃ t, exec (.sneImm x kk) s = .next t ∧ OnlyChanges [.pc] s t ∧
        t.pc.toNat = if s.reg x = kk then s.pc.toNat else (s.pc.toNat + 2) % 4096)

/-- R132, R133: `5xy0` is SE Vx, Vy, `9xy0` is SNE Vx, Vy; pc goes 2 further (modulo 4096) exactly when V[x] = V[y],
respectively V[x] ≠ V[y], and otherwise stays; nothing else changes. That the words `5xyN` and `9xyN` with N ≠ 0 are
unrecognised is the spec's own decision D7 (R96; log 10). -/
def Obligations.SkipOnRegisters : Prop :=
  ∀ x y : RegIdx,
    decodeWord (0x5#4 ++ x ++ y ++ 0x0#4) = .ok (.seReg x y) ∧
    decodeWord (0x9#4 ++ x ++ y ++ 0x0#4) = .ok (.sneReg x y) ∧
    (∀ n : Nibble, n ≠ 0 → (∃ e, decodeWord (0x5#4 ++ x ++ y ++ n) = .error e) ∧
      ∃ e, decodeWord (0x9#4 ++ x ++ y ++ n) = .error e) ∧
    ∀ s : State,
      (∃ t, exec (.seReg x y) s = .next t ∧ OnlyChanges [.pc] s t ∧
        t.pc.toNat = if s.reg x = s.reg y then (s.pc.toNat + 2) % 4096 else s.pc.toNat) ∧
      (∃ t, exec (.sneReg x y) s = .next t ∧ OnlyChanges [.pc] s t ∧
        t.pc.toNat = if s.reg x = s.reg y then s.pc.toNat else (s.pc.toNat + 2) % 4096)

/-! ## Immediates -/

/-- R140: `6xkk` is LD Vx, kk; V[x] becomes kk, V[15] included, nothing else changes. -/
def Obligations.LdImmLoadsRegister : Prop :=
  ∀ (x : RegIdx) (kk : Byte), decodeWord (0x6#4 ++ x ++ kk) = .ok (.ldImm x kk) ∧
    ∀ s : State, ∃ t, exec (.ldImm x kk) s = .next t ∧ t.reg x = kk ∧ RegsSameBut [x] s t ∧ OnlyChanges [.regs] s t

/-- R141: `7xkk` is ADD Vx, kk; V[x] becomes (V[x] + kk) modulo 256 and no carry is recorded: no other register, V[15]
among them, and nothing else changes. -/
def Obligations.AddImmWrapsWithoutFlag : Prop :=
  ∀ (x : RegIdx) (kk : Byte), decodeWord (0x7#4 ++ x ++ kk) = .ok (.addImm x kk) ∧
    ∀ s : State, ∃ t, exec (.addImm x kk) s = .next t ∧ (t.reg x).toNat = ((s.reg x).toNat + kk.toNat) % 256 ∧
      RegsSameBut [x] s t ∧ OnlyChanges [.regs] s t

/-! ## Class 8. In each statement V[15] holds the flag also when x = 15: the result is written first, the flag last,
both operands being read before (R150; D8, log 11). -/

/-- R151: `8xy0` is LD Vx, Vy; V[x] becomes V[y], and V[15] is not written unless x = 15 (D18, log 20). -/
def Obligations.LdRegCopiesWithoutFlag : Prop :=
  ∀ x y : RegIdx, decodeWord (0x8#4 ++ x ++ y ++ 0x0#4) = .ok (.ldReg x y) ∧
    ∀ s : State, ∃ t, exec (.ldReg x y) s = .next t ∧ t.reg x = s.reg y ∧ RegsSameBut [x] s t ∧ OnlyChanges [.regs] s t

/-- R152, R153, R154: `8xy1`, `8xy2`, `8xy3` are OR, AND, XOR Vx, Vy; bit by bit V[x] becomes the OR, AND, XOR of V[x] and
V[y], and V[15] becomes 0, also when x = 15 (D8, log 11). -/
def Obligations.LogicOpsClearFlag : Prop :=
  ∀ x y : RegIdx,
    decodeWord (0x8#4 ++ x ++ y ++ 0x1#4) = .ok (.orReg x y) ∧
    decodeWord (0x8#4 ++ x ++ y ++ 0x2#4) = .ok (.andReg x y) ∧
    decodeWord (0x8#4 ++ x ++ y ++ 0x3#4) = .ok (.xorReg x y) ∧
    ∀ s : State,
      (∃ t, exec (.orReg x y) s = .next t ∧ t.reg 15 = 0 ∧
        (x ≠ 15 → ∀ k, (t.reg x).getLsbD k = ((s.reg x).getLsbD k || (s.reg y).getLsbD k)) ∧
        RegsSameBut [x, 15] s t ∧ OnlyChanges [.regs] s t) ∧
      (∃ t, exec (.andReg x y) s = .next t ∧ t.reg 15 = 0 ∧
        (x ≠ 15 → ∀ k, (t.reg x).getLsbD k = ((s.reg x).getLsbD k && (s.reg y).getLsbD k)) ∧
        RegsSameBut [x, 15] s t ∧ OnlyChanges [.regs] s t) ∧
      (∃ t, exec (.xorReg x y) s = .next t ∧ t.reg 15 = 0 ∧
        (x ≠ 15 → ∀ k, (t.reg x).getLsbD k = ((s.reg x).getLsbD k ^^ (s.reg y).getLsbD k)) ∧
        RegsSameBut [x, 15] s t ∧ OnlyChanges [.regs] s t)

/-- R155: `8xy4` is ADD Vx, Vy; V[x] becomes the sum modulo 256 and V[15] is 1 if the unmodular sum exceeds 255, else 0,
also when x = 15 (D8, log 11). -/
def Obligations.AddRegSetsCarry : Prop :=
  ∀ x y : RegIdx, decodeWord (0x8#4 ++ x ++ y ++ 0x4#4) = .ok (.addReg x y) ∧
    ∀ s : State, ∃ t, exec (.addReg x y) s = .next t ∧
      (x ≠ 15 → (t.reg x).toNat = ((s.reg x).toNat + (s.reg y).toNat) % 256) ∧
      ((t.reg 15).toNat = if 255 < (s.reg x).toNat + (s.reg y).toNat then 1 else 0) ∧
      RegsSameBut [x, 15] s t ∧ OnlyChanges [.regs] s t

/-- R156, R157, R160: `8xy5` is SUB Vx, Vy and `8xy7` is SUBN Vx, Vy; V[x] becomes V[x] - V[y], respectively
V[y] - V[x], plus 256 when that is negative, and V[15] is 1 when there is no borrow, else 0, also when x = 15 (D8,
log 11). -/
def Obligations.SubtractionsSetNoBorrow : Prop :=
  ∀ x y : RegIdx,
    decodeWord (0x8#4 ++ x ++ y ++ 0x5#4) = .ok (.subReg x y) ∧
    decodeWord (0x8#4 ++ x ++ y ++ 0x7#4) = .ok (.subnReg x y) ∧
    ∀ s : State,
      (∃ t, exec (.subReg x y) s = .next t ∧
        (x ≠ 15 → ((t.reg x).toNat : Int) = (s.reg x).toNat - (s.reg y).toNat +
          if (s.reg y).toNat ≤ (s.reg x).toNat then 0 else 256) ∧
        ((t.reg 15).toNat = if (s.reg y).toNat ≤ (s.reg x).toNat then 1 else 0) ∧
        RegsSameBut [x, 15] s t ∧ OnlyChanges [.regs] s t) ∧
      (∃ t, exec (.subnReg x y) s = .next t ∧
        (x ≠ 15 → ((t.reg x).toNat : Int) = (s.reg y).toNat - (s.reg x).toNat +
          if (s.reg x).toNat ≤ (s.reg y).toNat then 0 else 256) ∧
        ((t.reg 15).toNat = if (s.reg x).toNat ≤ (s.reg y).toNat then 1 else 0) ∧
        RegsSameBut [x, 15] s t ∧ OnlyChanges [.regs] s t)

/-- R158: `8xy6` is SHR Vx, Vy; with SHIFT_SRC_Y the source is V[y], without it V[x]; V[x] becomes the source shifted
right by one, bit 7 being 0, and V[15] the source's bit 0, also when x = 15 (D8, log 11). -/
def Obligations.ShrShiftsRightByQuirk : Prop :=
  ∀ x y : RegIdx, decodeWord (0x8#4 ++ x ++ y ++ 0x6#4) = .ok (.shrReg x y) ∧
    ∀ (s : State) (src : Byte), (s.quirks.shiftSrcY = true → src = s.reg y) →
      (s.quirks.shiftSrcY = false → src = s.reg x) →
      ∃ t, exec (.shrReg x y) s = .next t ∧ (x ≠ 15 → (t.reg x).toNat = src.toNat / 2) ∧
        (t.reg 15).toNat = src.toNat % 2 ∧ RegsSameBut [x, 15] s t ∧ OnlyChanges [.regs] s t

/-- R159: `8xyE` is SHL Vx, Vy; with SHIFT_SRC_Y the source is V[y], without it V[x]; V[x] becomes the source shifted left
by one modulo 256 and V[15] the source's bit 7, also when x = 15 (D8, log 11). -/
def Obligations.ShlShiftsLeftByQuirk : Prop :=
  ∀ x y : RegIdx, decodeWord (0x8#4 ++ x ++ y ++ 0xE#4) = .ok (.shlReg x y) ∧
    ∀ (s : State) (src : Byte), (s.quirks.shiftSrcY = true → src = s.reg y) →
      (s.quirks.shiftSrcY = false → src = s.reg x) →
      ∃ t, exec (.shlReg x y) s = .next t ∧ (x ≠ 15 → (t.reg x).toNat = src.toNat * 2 % 256) ∧
        (t.reg 15).toNat = src.toNat / 128 ∧ RegsSameBut [x, 15] s t ∧ OnlyChanges [.regs] s t

/-! ## Index register -/

/-- R170: `Annn` is LD I, nnn; I becomes nnn, nothing else changes. -/
def Obligations.LdISetsIndex : Prop :=
  ∀ nnn : Addr, decodeWord (0xA#4 ++ nnn) = .ok (.ldI nnn) ∧
    ∀ s : State, ∃ t, exec (.ldI nnn) s = .next t ∧ t.i.toNat = nnn.toNat ∧ OnlyChanges [.index] s t

/-- R171: `Fx1E` is ADD I, Vx; I becomes (I + V[x]) modulo 4096, nothing else changes, V[15] included. -/
def Obligations.AddIWrapsWithoutFlag : Prop :=
  ∀ x : RegIdx, decodeWord (0xF#4 ++ x ++ 0x1E#8) = .ok (.addI x) ∧
    ∀ s : State, ∃ t, exec (.addI x) s = .next t ∧ t.i.toNat = (s.i.toNat + (s.reg x).toNat) % 4096 ∧
      OnlyChanges [.index] s t

/-- R172: `Fx29` is LD F, Vx; I becomes V[x] * 5 for every V[x], without a mask, nothing else changes. -/
def Obligations.LdFPointsAtGlyph : Prop :=
  ∀ x : RegIdx, decodeWord (0xF#4 ++ x ++ 0x29#8) = .ok (.ldF x) ∧
    ∀ s : State, ∃ t, exec (.ldF x) s = .next t ∧ t.i.toNat = (s.reg x).toNat * 5 ∧ OnlyChanges [.index] s t

/-! ## Random -/

/-- R180, R181: `Cxkk` is RND Vx, kk; V[x] becomes the byte the source answers next AND kk, so it has a 0 wherever kk has
one; exactly one byte is drawn; nothing else changes; no other instruction draws. That the source is an opaque function
of Config applied to a counter in State, which a draw advances by 1, is the model's own choice (log 2): its value is free,
so this holds for every answer of the source. -/
def Obligations.RndDrawsOneByte : Prop :=
  (∀ (x : RegIdx) (kk : Byte), decodeWord (0xC#4 ++ x ++ kk) = .ok (.rnd x kk) ∧
    ∀ s : State, ∃ t, exec (.rnd x kk) s = .next t ∧ t.reg x = Config.randomByte s.draws &&& kk ∧
      t.reg x &&& ~~~kk = 0 ∧ t.draws = s.draws + 1 ∧ RegsSameBut [x] s t ∧ OnlyChanges [.regs, .draws] s t) ∧
  (∀ (i : Instr) (s t : State), exec i s = .next t → (∀ x kk, i ≠ .rnd x kk) → t.draws = s.draws)

/-! ## Display -/

/-- R185: `00E0` is CLS; every one of the 2048 pixels becomes 0 whatever it was, nothing else changes. -/
def Obligations.ClsClearsEveryPixel : Prop :=
  decodeWord 0x00E0#16 = .ok .cls ∧
  ∀ s : State, ∃ t, exec .cls s = .next t ∧ (∀ p, p < 2048 → Display.pixel t.disp p = false) ∧
    OnlyChanges [.disp] s t

/-- R187, R188: `Dxyn` is DRW Vx, Vy, n; with the origin (V[x] mod 64, V[y] mod 32) (D19, log 21) taken before V[15] is
written (D8, log 11), the new buffer is the old one XOR the placed mask, wrapped or clipped by SPRITE_WRAP; V[15] is 1
exactly when the old buffer and the mask share a 1 pixel, else 0; nothing else changes. -/
def Obligations.DrwXorsPlacedMask : Prop :=
  ∀ (x y : RegIdx) (n : Nibble), decodeWord (0xD#4 ++ x ++ y ++ n) = .ok (.drw x y n) ∧
    ∀ s : State, ∃ t, exec (.drw x y n) s = .next t ∧
      (∀ p, p < 2048 → (Display.pixel t.disp p = true ↔
        ¬ (Display.pixel s.disp p = true ↔
          PlacedMask s ((s.reg x).toNat % 64) ((s.reg y).toNat % 32) n.toNat p))) ∧
      (t.reg 15 = 1 ↔ ∃ p, p < 2048 ∧ Display.pixel s.disp p = true ∧
        PlacedMask s ((s.reg x).toNat % 64) ((s.reg y).toNat % 32) n.toNat p) ∧
      (t.reg 15 = 0 ∨ t.reg 15 = 1) ∧ RegsSameBut [15] s t ∧ OnlyChanges [.regs, .disp] s t

/-- R189, read with R187: drawing the same sprite twice at the same coordinates (x and y not 15) restores the display
exactly. The second draw leaves V[15] = 1 exactly when the placed mask has a visible 1 pixel that was 0 before the first
draw. When no pixel under the mask was set before, the first leaves V[15] = 0 and the second leaves 1 exactly when the
mask has a visible 1 pixel. (R189's general sentence on the second flag leaves that condition out: log 27; the origin is D19, log 21, and is read before
the flag is written, D8, log 11.) -/
def Obligations.DrawingTwiceRestores : Prop :=
  ∀ (x y : RegIdx) (n : Nibble) (s : State), x ≠ 15 → y ≠ 15 →
    ∃ t u, exec (.drw x y n) s = .next t ∧ exec (.drw x y n) t = .next u ∧ u.disp = s.disp ∧
      (u.reg 15 = 1 ↔ ∃ p, p < 2048 ∧ Display.pixel s.disp p = false ∧
        PlacedMask s ((s.reg x).toNat % 64) ((s.reg y).toNat % 32) n.toNat p) ∧
      ((∀ p, p < 2048 → PlacedMask s ((s.reg x).toNat % 64) ((s.reg y).toNat % 32) n.toNat p →
        Display.pixel s.disp p = false) →
        t.reg 15 = 0 ∧
        (u.reg 15 = 1 ↔
          ∃ p, p < 2048 ∧ PlacedMask s ((s.reg x).toNat % 64) ((s.reg y).toNat % 32) n.toNat p))

/-! ## Keypad -/

/-- R200, R201, R203: `Ex9E` is SKP Vx, `ExA1` is SKNP Vx; pc goes 2 further (modulo 4096) exactly when key line
V[x] mod 16 (D11, log 14) is active, respectively is not, and otherwise stays; nothing else changes. -/
def Obligations.SkipOnKey : Prop :=
  ∀ x : RegIdx,
    decodeWord (0xE#4 ++ x ++ 0x9E#8) = .ok (.skp x) ∧ decodeWord (0xE#4 ++ x ++ 0xA1#8) = .ok (.sknp x) ∧
    ∀ s : State,
      (∃ t, exec (.skp x) s = .next t ∧ OnlyChanges [.pc] s t ∧
        t.pc.toNat = if s.keys.getLsbD ((s.reg x).toNat % 16) = true then (s.pc.toNat + 2) % 4096 else s.pc.toNat) ∧
      (∃ t, exec (.sknp x) s = .next t ∧ OnlyChanges [.pc] s t ∧
        t.pc.toNat = if s.keys.getLsbD ((s.reg x).toNat % 16) = true then s.pc.toNat else (s.pc.toNat + 2) % 4096)

/-- R202, R204: `Fx0A` is LD Vx, K; when a key line is active it completes at once, V[x] becoming the lowest active line
(D10, log 13) and the wait not entered; when none is active it enters the wait for register x (D9, log 12); nothing else
changes, pc staying after the instruction. -/
def Obligations.LdVxKTakesKeyOrWaits : Prop :=
  ∀ x : RegIdx, decodeWord (0xF#4 ++ x ++ 0x0A#8) = .ok (.ldVxK x) ∧
    ∀ s : State,
      (∀ k, k < 16 → s.keys.getLsbD k = true → (∀ j, j < k → s.keys.getLsbD j = false) →
        ∃ t, exec (.ldVxK x) s = .next t ∧ (t.reg x).toNat = k ∧ RegsSameBut [x] s t ∧ OnlyChanges [.regs] s t) ∧
      ((∀ k, k < 16 → s.keys.getLsbD k = false) →
        ∃ t, exec (.ldVxK x) s = .next t ∧ t.wait = some x ∧ OnlyChanges [.wait] s t)

/-! ## Timers -/

/-- R210: `Fx07` is LD Vx, DT; V[x] becomes DT, which is unchanged, as is everything else. -/
def Obligations.LdVxDtReadsDelayTimer : Prop :=
  ∀ x : RegIdx, decodeWord (0xF#4 ++ x ++ 0x07#8) = .ok (.ldVxDt x) ∧
    ∀ s : State, ∃ t, exec (.ldVxDt x) s = .next t ∧ t.reg x = s.dt ∧ RegsSameBut [x] s t ∧ OnlyChanges [.regs] s t

/-- R211, R212: `Fx15` is LD DT, Vx, `Fx18` is LD ST, Vx; the timer is replaced whole by V[x], nothing else changes; after
LD ST, Vx the host reads the new value, and the tone condition holds exactly when it is not 0. -/
def Obligations.TimerLoadsReplaceTimer : Prop :=
  ∀ x : RegIdx, decodeWord (0xF#4 ++ x ++ 0x15#8) = .ok (.ldDtVx x) ∧
    decodeWord (0xF#4 ++ x ++ 0x18#8) = .ok (.ldStVx x) ∧
    ∀ s : State,
      (∃ t, exec (.ldDtVx x) s = .next t ∧ t.dt = s.reg x ∧ OnlyChanges [.dt] s t) ∧
      (∃ t, exec (.ldStVx x) s = .next t ∧ t.st = s.reg x ∧ readSound t = s.reg x ∧
        (toneOn t = true ↔ s.reg x ≠ 0) ∧ OnlyChanges [.st] s t)

/-! ## Memory -/

/-- R64: MemRead changes nothing (it is a function of the state); MemWrite sets the byte at its address modulo 4096 and
changes nothing else: every other address reads as before, and so does every other piece of the machine. The premise is
the canonical form of the memory list, the model's own (log 28), which every reachable state has. -/
def Obligations.MemWriteSetsOneByte : Prop :=
  ∀ (s : State) (a : Nat) (b : Byte), s.mem.wf = true →
    (∀ p, (s.memWrite a b).memRead p = if p % 4096 = a % 4096 then b else s.memRead p) ∧
    OnlyChanges [.mem] s (s.memWrite a b)

/-- R220: `Fx33` is LD B, Vx; the decimal digits of V[x] stand at I, I + 1, I + 2 (modulo 4096), hundreds first, every
other byte of memory reads as before, I and everything else is unchanged. The premise is the canonical form of the
memory list, the model's own (log 28). -/
def Obligations.LdBStoresDigits : Prop :=
  ∀ x : RegIdx, decodeWord (0xF#4 ++ x ++ 0x33#8) = .ok (.ldB x) ∧
    ∀ s : State, s.mem.wf = true → ∃ t, exec (.ldB x) s = .next t ∧
      (t.memRead s.i.toNat).toNat = (s.reg x).toNat / 100 ∧
      (t.memRead (s.i.toNat + 1)).toNat = (s.reg x).toNat / 10 % 10 ∧
      (t.memRead (s.i.toNat + 2)).toNat = (s.reg x).toNat % 10 ∧
      (∀ a, a % 4096 ≠ s.i.toNat % 4096 → a % 4096 ≠ (s.i.toNat + 1) % 4096 → a % 4096 ≠ (s.i.toNat + 2) % 4096 →
        t.memRead a = s.memRead a) ∧
      OnlyChanges [.mem] s t

/-- R221: `Fx55` is LD [I], Vx; V[k] stands at I + k (modulo 4096) for k in 0..x, every other byte of memory reads as
before; with MEMIO_INC_I, I becomes (I + x + 1) modulo 4096, without it I stays; nothing else changes. The premise is the
canonical form of the memory list, the model's own (log 28). -/
def Obligations.StRegsStoresRange : Prop :=
  ∀ x : RegIdx, decodeWord (0xF#4 ++ x ++ 0x55#8) = .ok (.stRegs x) ∧
    ∀ s : State, s.mem.wf = true → ∃ t, exec (.stRegs x) s = .next t ∧
      (∀ k : RegIdx, k.toNat ≤ x.toNat → t.memRead (s.i.toNat + k.toNat) = s.reg k) ∧
      (∀ a, (∀ k, k ≤ x.toNat → a % 4096 ≠ (s.i.toNat + k) % 4096) → t.memRead a = s.memRead a) ∧
      (t.i.toNat = if s.quirks.memioIncI = true then (s.i.toNat + x.toNat + 1) % 4096 else s.i.toNat) ∧
      OnlyChanges [.mem, .index] s t

/-- R222: `Fx65` is LD Vx, [I]; V[k] becomes the byte at I + k (modulo 4096) for k in 0..x, registers above x and memory
are unchanged; with MEMIO_INC_I, I becomes (I + x + 1) modulo 4096, without it I stays; nothing else changes. -/
def Obligations.LdRegsLoadsRange : Prop :=
  ∀ x : RegIdx, decodeWord (0xF#4 ++ x ++ 0x65#8) = .ok (.ldRegs x) ∧
    ∀ s : State, ∃ t, exec (.ldRegs x) s = .next t ∧
      (∀ k : RegIdx, k.toNat ≤ x.toNat → t.reg k = s.memRead (s.i.toNat + k.toNat)) ∧
      (∀ k : RegIdx, x.toNat < k.toNat → t.reg k = s.reg k) ∧
      (t.i.toNat = if s.quirks.memioIncI = true then (s.i.toNat + x.toNat + 1) % 4096 else s.i.toNat) ∧
      OnlyChanges [.regs, .index] s t

/-- R223: LD [I], Vx and later LD Vx, [I], with I at the second what it was at the first and the stored bytes not
overwritten between, whatever else changed: V[0..x] hold what they held at the store. -/
def Obligations.StoreThenLoadRestoresRegisters : Prop :=
  ∀ (x : RegIdx) (s t u : State), s.mem.wf = true → exec (.stRegs x) s = .next t → u.i = s.i →
    (∀ k, k ≤ x.toNat → u.memRead (s.i.toNat + k) = t.memRead (s.i.toNat + k)) →
    ∃ w, exec (.ldRegs x) u = .next w ∧ ∀ k : RegIdx, k.toNat ≤ x.toNat → w.reg k = s.reg k

/-! ## Host operations -/

/-- R251: tick takes both timers down by 1, floored at 0, in the same tick, always succeeds, whatever the wait, and
changes nothing else. -/
def Obligations.TickDecrementsBothTimers : Prop :=
  ∀ s : State, ∃ t, act .tick s = .next t ∧
    (t.dt.toNat = if 0 < s.dt.toNat then s.dt.toNat - 1 else 0) ∧
    (t.st.toNat = if 0 < s.st.toNat then s.st.toNat - 1 else 0) ∧ OnlyChanges [.dt, .st] s t

/-- R252: set_keys sets each of the sixteen lines, always succeeds and changes nothing else; a step never changes a
line. -/
def Obligations.SetKeysSetsLines : Prop :=
  (∀ (s : State) (k : BitVec 16), ∃ t, act (.setKeys k) s = .next t ∧
    (∀ j, j < 16 → t.keyActive j = k.getLsbD j) ∧ OnlyChanges [.keys] s t) ∧
  (∀ s t : State, step s = .next t → ∀ j, j < 16 → t.keyActive j = s.keyActive j)

/-- R270, R36: reset succeeds from any state and leaves every element of the spec's state at its reset value: registers,
I, SP, stack, timers, key lines and pixels 0, no wait, pc = 0x200 (D2, log 4), the font table of R34 (D3, log 5) at 0..79
and 0 above; it does not change the quirks or the random source. -/
def Obligations.ResetLeavesResetValues : Prop :=
  ∀ s : State, ∃ t, act .reset s = .next t ∧
    (∀ r, t.reg r = 0) ∧ t.i = 0 ∧ t.pc = 0x200#16 ∧ t.sp = 0 ∧ (∀ k, k < 16 → t.stackSlot k = 0) ∧ t.dt = 0 ∧
    t.st = 0 ∧ (∀ k, k < 16 → t.keyActive k = false) ∧ (∀ p, p < 2048 → Display.pixel t.disp p = false) ∧
    t.wait = none ∧
    (List.range 20).map t.memRead =
      [0xF0, 0x90, 0x90, 0x90, 0xF0] ++ [0x20, 0x60, 0x20, 0x20, 0x70] ++ [0xF0, 0x10, 0xF0, 0x80, 0xF0] ++
      [0xF0, 0x10, 0xF0, 0x10, 0xF0] ∧
    (List.range 20).map (fun a => t.memRead (20 + a)) =
      [0x90, 0x90, 0xF0, 0x10, 0x10] ++ [0xF0, 0x80, 0xF0, 0x10, 0xF0] ++ [0xF0, 0x80, 0xF0, 0x90, 0xF0] ++
      [0xF0, 0x10, 0x20, 0x40, 0x40] ∧
    (List.range 20).map (fun a => t.memRead (40 + a)) =
      [0xF0, 0x90, 0xF0, 0x90, 0xF0] ++ [0xF0, 0x90, 0xF0, 0x10, 0xF0] ++ [0xF0, 0x90, 0xF0, 0x90, 0x90] ++
      [0xE0, 0x90, 0xE0, 0x90, 0xE0] ∧
    (List.range 20).map (fun a => t.memRead (60 + a)) =
      [0xF0, 0x80, 0x80, 0x80, 0xF0] ++ [0xE0, 0x90, 0x90, 0x90, 0xE0] ++ [0xF0, 0x80, 0xF0, 0x80, 0xF0] ++
      [0xF0, 0x80, 0xF0, 0x80, 0x80] ∧
    (∀ a, 80 ≤ a → a < 4096 → t.memRead a = 0) ∧ t.quirks = s.quirks ∧ t.draws = s.draws

/-- R272: load of an image longer than 4096 - 0x200 = 3584 bytes raises ImageTooLarge (and the caller keeps its state:
D20, log 22); any other image is installed: the state is the one reset leaves, but for memory, where byte k of the image
stands at 0x200 + k (D2, log 4) and every address outside the image reads as after reset. -/
def Obligations.LoadInstallsImageOrFails : Prop :=
  ∀ (s : State) (image : List Byte),
    (3584 < image.length → act (.load image) s = .fault .imageTooLarge) ∧
    (image.length ≤ 3584 → ∃ r t, act .reset s = .next r ∧ act (.load image) s = .next t ∧
      (∀ k (h : k < image.length), t.memRead (0x200 + k) = image[k]) ∧
      (∀ a, a < 4096 → (a < 0x200 ∨ 0x200 + image.length ≤ a) → t.memRead a = r.memRead a) ∧
      OnlyChanges [.mem] r t)

/-! ## Runs -/

/-- R262, R241: whatever END_OF_RUN is (the parameter D23 leaves open; log 25), a run from a state that meets the
invariants comes out in one of three ways, each in a state that meets them: it has ended, in a state of which END_OF_RUN
holds; or a step faults there, with one of the two stack faults; or the host has stopped; in the last two END_OF_RUN does
not hold. And a run is its first events and then, if it is not over, the rest: so END_OF_RUN holds first where it ends. -/
def Obligations.RunEndsOnlyByEndFaultOrHost : Prop :=
  ∀ (endOfRun : EndOfRun) (es : List Event) (s : State), MachineInv s →
    ((∃ t, runEvents endOfRun es s = .ended t ∧ MachineInv t ∧ endOfRun t = true) ∨
      (∃ f t, runEvents endOfRun es s = .faulted f t ∧ MachineInv t ∧ endOfRun t = false ∧ step t = .fault f ∧
        (f = .stackOverflow ∨ f = .stackUnderflow)) ∨
      (∃ t, runEvents endOfRun es s = .stopped t ∧ MachineInv t ∧ endOfRun t = false)) ∧
    ∀ later : List Event, runEvents endOfRun (es ++ later) s =
      match runEvents endOfRun es s with
      | .stopped t => runEvents endOfRun later t
      | o => o

/-- D23, R262, R107, R121: under the END_OF_RUN that D23 suggests (log 25), a state in which the run has ended never changes
again by steps: a step answers the very same state, and so does any number of them. -/
def Obligations.SuggestedEndIsFixedPoint : Prop :=
  ∀ s : State, selfJump s = true →
    step s = .next s ∧ ∀ n, runEvents neverEnds (List.replicate n .step) s = .stopped s
end

