-- ==== Sys2Proof/Laws/State.lean ====
section
/-! SUPPORT. One lemma per field per update of State, all true by rfl, so that no proof unfolds a record update; then
what each update leaves of the machine's reads (register, memory byte, stack slot, key line). -/

namespace Sys2Proof.Machine

variable (s : State)

/-! `setReg` -/

@[simp] theorem State.setReg_v (x : RegIdx) (b : Byte) : (s.setReg x b).v = s.v.set x.toNat b (regIdx_lt x) := rfl
@[simp] theorem State.setReg_i (x : RegIdx) (b : Byte) : (s.setReg x b).i = s.i := rfl
@[simp] theorem State.setReg_pc (x : RegIdx) (b : Byte) : (s.setReg x b).pc = s.pc := rfl
@[simp] theorem State.setReg_sp (x : RegIdx) (b : Byte) : (s.setReg x b).sp = s.sp := rfl
@[simp] theorem State.setReg_stack (x : RegIdx) (b : Byte) : (s.setReg x b).stack = s.stack := rfl
@[simp] theorem State.setReg_dt (x : RegIdx) (b : Byte) : (s.setReg x b).dt = s.dt := rfl
@[simp] theorem State.setReg_st (x : RegIdx) (b : Byte) : (s.setReg x b).st = s.st := rfl
@[simp] theorem State.setReg_keys (x : RegIdx) (b : Byte) : (s.setReg x b).keys = s.keys := rfl
@[simp] theorem State.setReg_disp (x : RegIdx) (b : Byte) : (s.setReg x b).disp = s.disp := rfl
@[simp] theorem State.setReg_mem (x : RegIdx) (b : Byte) : (s.setReg x b).mem = s.mem := rfl
@[simp] theorem State.setReg_wait (x : RegIdx) (b : Byte) : (s.setReg x b).wait = s.wait := rfl
@[simp] theorem State.setReg_quirks (x : RegIdx) (b : Byte) : (s.setReg x b).quirks = s.quirks := rfl
@[simp] theorem State.setReg_draws (x : RegIdx) (b : Byte) : (s.setReg x b).draws = s.draws := rfl
@[simp] theorem State.setReg_diags (x : RegIdx) (b : Byte) : (s.setReg x b).diags = s.diags := rfl
@[simp] theorem State.setReg_memRead (x : RegIdx) (b : Byte) (p : Nat) : (s.setReg x b).memRead p = s.memRead p := rfl
@[simp] theorem State.setReg_stackSlot (x : RegIdx) (b : Byte) (k : Nat) : (s.setReg x b).stackSlot k = s.stackSlot k := rfl
@[simp] theorem State.setReg_keyActive (x : RegIdx) (b : Byte) (k : Nat) : (s.setReg x b).keyActive k = s.keyActive k := rfl

/-! `setI` -/

@[simp] theorem State.setI_v (a : Nat) : (s.setI a).v = s.v := rfl
@[simp] theorem State.setI_i (a : Nat) : (s.setI a).i = BitVec.ofNat 16 (a % Config.memSize) := rfl
@[simp] theorem State.setI_pc (a : Nat) : (s.setI a).pc = s.pc := rfl
@[simp] theorem State.setI_sp (a : Nat) : (s.setI a).sp = s.sp := rfl
@[simp] theorem State.setI_stack (a : Nat) : (s.setI a).stack = s.stack := rfl
@[simp] theorem State.setI_dt (a : Nat) : (s.setI a).dt = s.dt := rfl
@[simp] theorem State.setI_st (a : Nat) : (s.setI a).st = s.st := rfl
@[simp] theorem State.setI_keys (a : Nat) : (s.setI a).keys = s.keys := rfl
@[simp] theorem State.setI_disp (a : Nat) : (s.setI a).disp = s.disp := rfl
@[simp] theorem State.setI_mem (a : Nat) : (s.setI a).mem = s.mem := rfl
@[simp] theorem State.setI_wait (a : Nat) : (s.setI a).wait = s.wait := rfl
@[simp] theorem State.setI_quirks (a : Nat) : (s.setI a).quirks = s.quirks := rfl
@[simp] theorem State.setI_draws (a : Nat) : (s.setI a).draws = s.draws := rfl
@[simp] theorem State.setI_diags (a : Nat) : (s.setI a).diags = s.diags := rfl
@[simp] theorem State.setI_reg (a : Nat) (r : RegIdx) : (s.setI a).reg r = s.reg r := rfl
@[simp] theorem State.setI_memRead (a : Nat) (p : Nat) : (s.setI a).memRead p = s.memRead p := rfl
@[simp] theorem State.setI_stackSlot (a : Nat) (k : Nat) : (s.setI a).stackSlot k = s.stackSlot k := rfl
@[simp] theorem State.setI_keyActive (a : Nat) (k : Nat) : (s.setI a).keyActive k = s.keyActive k := rfl

/-! `setPc` -/

@[simp] theorem State.setPc_v (a : Nat) : (s.setPc a).v = s.v := rfl
@[simp] theorem State.setPc_i (a : Nat) : (s.setPc a).i = s.i := rfl
@[simp] theorem State.setPc_pc (a : Nat) : (s.setPc a).pc = BitVec.ofNat 16 (a % Config.memSize) := rfl
@[simp] theorem State.setPc_sp (a : Nat) : (s.setPc a).sp = s.sp := rfl
@[simp] theorem State.setPc_stack (a : Nat) : (s.setPc a).stack = s.stack := rfl
@[simp] theorem State.setPc_dt (a : Nat) : (s.setPc a).dt = s.dt := rfl
@[simp] theorem State.setPc_st (a : Nat) : (s.setPc a).st = s.st := rfl
@[simp] theorem State.setPc_keys (a : Nat) : (s.setPc a).keys = s.keys := rfl
@[simp] theorem State.setPc_disp (a : Nat) : (s.setPc a).disp = s.disp := rfl
@[simp] theorem State.setPc_mem (a : Nat) : (s.setPc a).mem = s.mem := rfl
@[simp] theorem State.setPc_wait (a : Nat) : (s.setPc a).wait = s.wait := rfl
@[simp] theorem State.setPc_quirks (a : Nat) : (s.setPc a).quirks = s.quirks := rfl
@[simp] theorem State.setPc_draws (a : Nat) : (s.setPc a).draws = s.draws := rfl
@[simp] theorem State.setPc_diags (a : Nat) : (s.setPc a).diags = s.diags := rfl
@[simp] theorem State.setPc_reg (a : Nat) (r : RegIdx) : (s.setPc a).reg r = s.reg r := rfl
@[simp] theorem State.setPc_memRead (a : Nat) (p : Nat) : (s.setPc a).memRead p = s.memRead p := rfl
@[simp] theorem State.setPc_stackSlot (a : Nat) (k : Nat) : (s.setPc a).stackSlot k = s.stackSlot k := rfl
@[simp] theorem State.setPc_keyActive (a : Nat) (k : Nat) : (s.setPc a).keyActive k = s.keyActive k := rfl

/-! `setDt` -/

@[simp] theorem State.setDt_v (b : Byte) : (s.setDt b).v = s.v := rfl
@[simp] theorem State.setDt_i (b : Byte) : (s.setDt b).i = s.i := rfl
@[simp] theorem State.setDt_pc (b : Byte) : (s.setDt b).pc = s.pc := rfl
@[simp] theorem State.setDt_sp (b : Byte) : (s.setDt b).sp = s.sp := rfl
@[simp] theorem State.setDt_stack (b : Byte) : (s.setDt b).stack = s.stack := rfl
@[simp] theorem State.setDt_dt (b : Byte) : (s.setDt b).dt = b := rfl
@[simp] theorem State.setDt_st (b : Byte) : (s.setDt b).st = s.st := rfl
@[simp] theorem State.setDt_keys (b : Byte) : (s.setDt b).keys = s.keys := rfl
@[simp] theorem State.setDt_disp (b : Byte) : (s.setDt b).disp = s.disp := rfl
@[simp] theorem State.setDt_mem (b : Byte) : (s.setDt b).mem = s.mem := rfl
@[simp] theorem State.setDt_wait (b : Byte) : (s.setDt b).wait = s.wait := rfl
@[simp] theorem State.setDt_quirks (b : Byte) : (s.setDt b).quirks = s.quirks := rfl
@[simp] theorem State.setDt_draws (b : Byte) : (s.setDt b).draws = s.draws := rfl
@[simp] theorem State.setDt_diags (b : Byte) : (s.setDt b).diags = s.diags := rfl
@[simp] theorem State.setDt_reg (b : Byte) (r : RegIdx) : (s.setDt b).reg r = s.reg r := rfl
@[simp] theorem State.setDt_memRead (b : Byte) (p : Nat) : (s.setDt b).memRead p = s.memRead p := rfl
@[simp] theorem State.setDt_stackSlot (b : Byte) (k : Nat) : (s.setDt b).stackSlot k = s.stackSlot k := rfl
@[simp] theorem State.setDt_keyActive (b : Byte) (k : Nat) : (s.setDt b).keyActive k = s.keyActive k := rfl

/-! `setSt` -/

@[simp] theorem State.setSt_v (b : Byte) : (s.setSt b).v = s.v := rfl
@[simp] theorem State.setSt_i (b : Byte) : (s.setSt b).i = s.i := rfl
@[simp] theorem State.setSt_pc (b : Byte) : (s.setSt b).pc = s.pc := rfl
@[simp] theorem State.setSt_sp (b : Byte) : (s.setSt b).sp = s.sp := rfl
@[simp] theorem State.setSt_stack (b : Byte) : (s.setSt b).stack = s.stack := rfl
@[simp] theorem State.setSt_dt (b : Byte) : (s.setSt b).dt = s.dt := rfl
@[simp] theorem State.setSt_st (b : Byte) : (s.setSt b).st = b := rfl
@[simp] theorem State.setSt_keys (b : Byte) : (s.setSt b).keys = s.keys := rfl
@[simp] theorem State.setSt_disp (b : Byte) : (s.setSt b).disp = s.disp := rfl
@[simp] theorem State.setSt_mem (b : Byte) : (s.setSt b).mem = s.mem := rfl
@[simp] theorem State.setSt_wait (b : Byte) : (s.setSt b).wait = s.wait := rfl
@[simp] theorem State.setSt_quirks (b : Byte) : (s.setSt b).quirks = s.quirks := rfl
@[simp] theorem State.setSt_draws (b : Byte) : (s.setSt b).draws = s.draws := rfl
@[simp] theorem State.setSt_diags (b : Byte) : (s.setSt b).diags = s.diags := rfl
@[simp] theorem State.setSt_reg (b : Byte) (r : RegIdx) : (s.setSt b).reg r = s.reg r := rfl
@[simp] theorem State.setSt_memRead (b : Byte) (p : Nat) : (s.setSt b).memRead p = s.memRead p := rfl
@[simp] theorem State.setSt_stackSlot (b : Byte) (k : Nat) : (s.setSt b).stackSlot k = s.stackSlot k := rfl
@[simp] theorem State.setSt_keyActive (b : Byte) (k : Nat) : (s.setSt b).keyActive k = s.keyActive k := rfl

/-! `setDisp` -/

@[simp] theorem State.setDisp_v (d : Display) : (s.setDisp d).v = s.v := rfl
@[simp] theorem State.setDisp_i (d : Display) : (s.setDisp d).i = s.i := rfl
@[simp] theorem State.setDisp_pc (d : Display) : (s.setDisp d).pc = s.pc := rfl
@[simp] theorem State.setDisp_sp (d : Display) : (s.setDisp d).sp = s.sp := rfl
@[simp] theorem State.setDisp_stack (d : Display) : (s.setDisp d).stack = s.stack := rfl
@[simp] theorem State.setDisp_dt (d : Display) : (s.setDisp d).dt = s.dt := rfl
@[simp] theorem State.setDisp_st (d : Display) : (s.setDisp d).st = s.st := rfl
@[simp] theorem State.setDisp_keys (d : Display) : (s.setDisp d).keys = s.keys := rfl
@[simp] theorem State.setDisp_disp (d : Display) : (s.setDisp d).disp = d := rfl
@[simp] theorem State.setDisp_mem (d : Display) : (s.setDisp d).mem = s.mem := rfl
@[simp] theorem State.setDisp_wait (d : Display) : (s.setDisp d).wait = s.wait := rfl
@[simp] theorem State.setDisp_quirks (d : Display) : (s.setDisp d).quirks = s.quirks := rfl
@[simp] theorem State.setDisp_draws (d : Display) : (s.setDisp d).draws = s.draws := rfl
@[simp] theorem State.setDisp_diags (d : Display) : (s.setDisp d).diags = s.diags := rfl
@[simp] theorem State.setDisp_reg (d : Display) (r : RegIdx) : (s.setDisp d).reg r = s.reg r := rfl
@[simp] theorem State.setDisp_memRead (d : Display) (p : Nat) : (s.setDisp d).memRead p = s.memRead p := rfl
@[simp] theorem State.setDisp_stackSlot (d : Display) (k : Nat) : (s.setDisp d).stackSlot k = s.stackSlot k := rfl
@[simp] theorem State.setDisp_keyActive (d : Display) (k : Nat) : (s.setDisp d).keyActive k = s.keyActive k := rfl

/-! `setWait` -/

@[simp] theorem State.setWait_v (w : Option RegIdx) : (s.setWait w).v = s.v := rfl
@[simp] theorem State.setWait_i (w : Option RegIdx) : (s.setWait w).i = s.i := rfl
@[simp] theorem State.setWait_pc (w : Option RegIdx) : (s.setWait w).pc = s.pc := rfl
@[simp] theorem State.setWait_sp (w : Option RegIdx) : (s.setWait w).sp = s.sp := rfl
@[simp] theorem State.setWait_stack (w : Option RegIdx) : (s.setWait w).stack = s.stack := rfl
@[simp] theorem State.setWait_dt (w : Option RegIdx) : (s.setWait w).dt = s.dt := rfl
@[simp] theorem State.setWait_st (w : Option RegIdx) : (s.setWait w).st = s.st := rfl
@[simp] theorem State.setWait_keys (w : Option RegIdx) : (s.setWait w).keys = s.keys := rfl
@[simp] theorem State.setWait_disp (w : Option RegIdx) : (s.setWait w).disp = s.disp := rfl
@[simp] theorem State.setWait_mem (w : Option RegIdx) : (s.setWait w).mem = s.mem := rfl
@[simp] theorem State.setWait_wait (w : Option RegIdx) : (s.setWait w).wait = w := rfl
@[simp] theorem State.setWait_quirks (w : Option RegIdx) : (s.setWait w).quirks = s.quirks := rfl
@[simp] theorem State.setWait_draws (w : Option RegIdx) : (s.setWait w).draws = s.draws := rfl
@[simp] theorem State.setWait_diags (w : Option RegIdx) : (s.setWait w).diags = s.diags := rfl
@[simp] theorem State.setWait_reg (w : Option RegIdx) (r : RegIdx) : (s.setWait w).reg r = s.reg r := rfl
@[simp] theorem State.setWait_memRead (w : Option RegIdx) (p : Nat) : (s.setWait w).memRead p = s.memRead p := rfl
@[simp] theorem State.setWait_stackSlot (w : Option RegIdx) (k : Nat) : (s.setWait w).stackSlot k = s.stackSlot k := rfl
@[simp] theorem State.setWait_keyActive (w : Option RegIdx) (k : Nat) : (s.setWait w).keyActive k = s.keyActive k := rfl

/-! `memWrite` -/

@[simp] theorem State.memWrite_v (a : Nat) (b : Byte) : (s.memWrite a b).v = s.v := rfl
@[simp] theorem State.memWrite_i (a : Nat) (b : Byte) : (s.memWrite a b).i = s.i := rfl
@[simp] theorem State.memWrite_pc (a : Nat) (b : Byte) : (s.memWrite a b).pc = s.pc := rfl
@[simp] theorem State.memWrite_sp (a : Nat) (b : Byte) : (s.memWrite a b).sp = s.sp := rfl
@[simp] theorem State.memWrite_stack (a : Nat) (b : Byte) : (s.memWrite a b).stack = s.stack := rfl
@[simp] theorem State.memWrite_dt (a : Nat) (b : Byte) : (s.memWrite a b).dt = s.dt := rfl
@[simp] theorem State.memWrite_st (a : Nat) (b : Byte) : (s.memWrite a b).st = s.st := rfl
@[simp] theorem State.memWrite_keys (a : Nat) (b : Byte) : (s.memWrite a b).keys = s.keys := rfl
@[simp] theorem State.memWrite_disp (a : Nat) (b : Byte) : (s.memWrite a b).disp = s.disp := rfl
@[simp] theorem State.memWrite_mem (a : Nat) (b : Byte) : (s.memWrite a b).mem = Memory.write (a % Config.memSize) b s.mem := rfl
@[simp] theorem State.memWrite_wait (a : Nat) (b : Byte) : (s.memWrite a b).wait = s.wait := rfl
@[simp] theorem State.memWrite_quirks (a : Nat) (b : Byte) : (s.memWrite a b).quirks = s.quirks := rfl
@[simp] theorem State.memWrite_draws (a : Nat) (b : Byte) : (s.memWrite a b).draws = s.draws := rfl
@[simp] theorem State.memWrite_diags (a : Nat) (b : Byte) : (s.memWrite a b).diags = s.diags := rfl
@[simp] theorem State.memWrite_reg (a : Nat) (b : Byte) (r : RegIdx) : (s.memWrite a b).reg r = s.reg r := rfl
@[simp] theorem State.memWrite_stackSlot (a : Nat) (b : Byte) (k : Nat) : (s.memWrite a b).stackSlot k = s.stackSlot k := rfl
@[simp] theorem State.memWrite_keyActive (a : Nat) (b : Byte) (k : Nat) : (s.memWrite a b).keyActive k = s.keyActive k := rfl

/-! `push` -/

@[simp] theorem State.push_v (w : Word) : (s.push w).v = s.v := rfl
@[simp] theorem State.push_i (w : Word) : (s.push w).i = s.i := rfl
@[simp] theorem State.push_pc (w : Word) : (s.push w).pc = s.pc := rfl
@[simp] theorem State.push_sp (w : Word) : (s.push w).sp = s.sp + 1 := rfl
@[simp] theorem State.push_stack (w : Word) : (s.push w).stack = s.stack.setIfInBounds s.sp.toNat w := rfl
@[simp] theorem State.push_dt (w : Word) : (s.push w).dt = s.dt := rfl
@[simp] theorem State.push_st (w : Word) : (s.push w).st = s.st := rfl
@[simp] theorem State.push_keys (w : Word) : (s.push w).keys = s.keys := rfl
@[simp] theorem State.push_disp (w : Word) : (s.push w).disp = s.disp := rfl
@[simp] theorem State.push_mem (w : Word) : (s.push w).mem = s.mem := rfl
@[simp] theorem State.push_wait (w : Word) : (s.push w).wait = s.wait := rfl
@[simp] theorem State.push_quirks (w : Word) : (s.push w).quirks = s.quirks := rfl
@[simp] theorem State.push_draws (w : Word) : (s.push w).draws = s.draws := rfl
@[simp] theorem State.push_diags (w : Word) : (s.push w).diags = s.diags := rfl
@[simp] theorem State.push_reg (w : Word) (r : RegIdx) : (s.push w).reg r = s.reg r := rfl
@[simp] theorem State.push_memRead (w : Word) (p : Nat) : (s.push w).memRead p = s.memRead p := rfl
@[simp] theorem State.push_keyActive (w : Word) (k : Nat) : (s.push w).keyActive k = s.keyActive k := rfl

/-! `dropTop` -/

@[simp] theorem State.dropTop_v : (s.dropTop).v = s.v := rfl
@[simp] theorem State.dropTop_i : (s.dropTop).i = s.i := rfl
@[simp] theorem State.dropTop_pc : (s.dropTop).pc = s.pc := rfl
@[simp] theorem State.dropTop_sp : (s.dropTop).sp = s.sp - 1 := rfl
@[simp] theorem State.dropTop_stack : (s.dropTop).stack = s.stack := rfl
@[simp] theorem State.dropTop_dt : (s.dropTop).dt = s.dt := rfl
@[simp] theorem State.dropTop_st : (s.dropTop).st = s.st := rfl
@[simp] theorem State.dropTop_keys : (s.dropTop).keys = s.keys := rfl
@[simp] theorem State.dropTop_disp : (s.dropTop).disp = s.disp := rfl
@[simp] theorem State.dropTop_mem : (s.dropTop).mem = s.mem := rfl
@[simp] theorem State.dropTop_wait : (s.dropTop).wait = s.wait := rfl
@[simp] theorem State.dropTop_quirks : (s.dropTop).quirks = s.quirks := rfl
@[simp] theorem State.dropTop_draws : (s.dropTop).draws = s.draws := rfl
@[simp] theorem State.dropTop_diags : (s.dropTop).diags = s.diags := rfl
@[simp] theorem State.dropTop_reg (r : RegIdx) : (s.dropTop).reg r = s.reg r := rfl
@[simp] theorem State.dropTop_memRead (p : Nat) : (s.dropTop).memRead p = s.memRead p := rfl
@[simp] theorem State.dropTop_stackSlot (k : Nat) : (s.dropTop).stackSlot k = s.stackSlot k := rfl
@[simp] theorem State.dropTop_keyActive (k : Nat) : (s.dropTop).keyActive k = s.keyActive k := rfl

/-! `countDraw` -/

@[simp] theorem State.countDraw_v : (s.countDraw).v = s.v := rfl
@[simp] theorem State.countDraw_i : (s.countDraw).i = s.i := rfl
@[simp] theorem State.countDraw_pc : (s.countDraw).pc = s.pc := rfl
@[simp] theorem State.countDraw_sp : (s.countDraw).sp = s.sp := rfl
@[simp] theorem State.countDraw_stack : (s.countDraw).stack = s.stack := rfl
@[simp] theorem State.countDraw_dt : (s.countDraw).dt = s.dt := rfl
@[simp] theorem State.countDraw_st : (s.countDraw).st = s.st := rfl
@[simp] theorem State.countDraw_keys : (s.countDraw).keys = s.keys := rfl
@[simp] theorem State.countDraw_disp : (s.countDraw).disp = s.disp := rfl
@[simp] theorem State.countDraw_mem : (s.countDraw).mem = s.mem := rfl
@[simp] theorem State.countDraw_wait : (s.countDraw).wait = s.wait := rfl
@[simp] theorem State.countDraw_quirks : (s.countDraw).quirks = s.quirks := rfl
@[simp] theorem State.countDraw_draws : (s.countDraw).draws = s.draws + 1 := rfl
@[simp] theorem State.countDraw_diags : (s.countDraw).diags = s.diags := rfl
@[simp] theorem State.countDraw_reg (r : RegIdx) : (s.countDraw).reg r = s.reg r := rfl
@[simp] theorem State.countDraw_memRead (p : Nat) : (s.countDraw).memRead p = s.memRead p := rfl
@[simp] theorem State.countDraw_stackSlot (k : Nat) : (s.countDraw).stackSlot k = s.stackSlot k := rfl
@[simp] theorem State.countDraw_keyActive (k : Nat) : (s.countDraw).keyActive k = s.keyActive k := rfl

/-! `notifyHost` -/

@[simp] theorem State.notifyHost_v (w : Word) : (s.notifyHost w).v = s.v := rfl
@[simp] theorem State.notifyHost_i (w : Word) : (s.notifyHost w).i = s.i := rfl
@[simp] theorem State.notifyHost_pc (w : Word) : (s.notifyHost w).pc = s.pc := rfl
@[simp] theorem State.notifyHost_sp (w : Word) : (s.notifyHost w).sp = s.sp := rfl
@[simp] theorem State.notifyHost_stack (w : Word) : (s.notifyHost w).stack = s.stack := rfl
@[simp] theorem State.notifyHost_dt (w : Word) : (s.notifyHost w).dt = s.dt := rfl
@[simp] theorem State.notifyHost_st (w : Word) : (s.notifyHost w).st = s.st := rfl
@[simp] theorem State.notifyHost_keys (w : Word) : (s.notifyHost w).keys = s.keys := rfl
@[simp] theorem State.notifyHost_disp (w : Word) : (s.notifyHost w).disp = s.disp := rfl
@[simp] theorem State.notifyHost_mem (w : Word) : (s.notifyHost w).mem = s.mem := rfl
@[simp] theorem State.notifyHost_wait (w : Word) : (s.notifyHost w).wait = s.wait := rfl
@[simp] theorem State.notifyHost_quirks (w : Word) : (s.notifyHost w).quirks = s.quirks := rfl
@[simp] theorem State.notifyHost_draws (w : Word) : (s.notifyHost w).draws = s.draws := rfl
@[simp] theorem State.notifyHost_diags (w : Word) : (s.notifyHost w).diags = w :: s.diags := rfl
@[simp] theorem State.notifyHost_reg (w : Word) (r : RegIdx) : (s.notifyHost w).reg r = s.reg r := rfl
@[simp] theorem State.notifyHost_memRead (w : Word) (p : Nat) : (s.notifyHost w).memRead p = s.memRead p := rfl
@[simp] theorem State.notifyHost_stackSlot (w : Word) (k : Nat) : (s.notifyHost w).stackSlot k = s.stackSlot k := rfl
@[simp] theorem State.notifyHost_keyActive (w : Word) (k : Nat) : (s.notifyHost w).keyActive k = s.keyActive k := rfl

end Sys2Proof.Machine
end

