-- ==== Sys2Proof/Laws/Memory.lean ====
section
/-! SUPPORT. The laws of memory: a read after a write, and that every memory operation keeps the canonical form. -/

namespace Sys2Proof.Machine

/-- Canonical from `lo` on is canonical from anything below. -/
theorem Memory.wfFrom_mono {lo lo' : Nat} (h : lo' ≤ lo) : ∀ {m : Memory}, m.wfFrom lo = true → m.wfFrom lo' = true
  | [], _ => rfl
  | c :: m, hm => by
    simp only [Memory.wfFrom, Bool.and_eq_true, decide_eq_true_eq] at hm ⊢
    exact ⟨⟨⟨by omega, hm.1.1.2⟩, hm.1.2⟩, hm.2⟩

/-- An address below every listed one reads as unlisted. -/
theorem Memory.read_below {lo a : Nat} (h : a < lo) : ∀ {m : Memory}, m.wfFrom lo = true → m.read a = unlisted a
  | [], _ => rfl
  | c :: m, hm => by
    simp only [Memory.wfFrom, Bool.and_eq_true, decide_eq_true_eq] at hm
    have hne : a ≠ c.1 := by omega
    simp only [Memory.read, hne, if_false]
    exact Memory.read_below (by omega) hm.2

/-- READ AFTER WRITE: the written byte at its address, every other address as before. -/
theorem Memory.read_write (a : Nat) (b : Byte) (a' : Nat) :
    ∀ {lo : Nat} {m : Memory}, m.wfFrom lo = true → (Memory.write a b m).read a' = if a' = a then b else m.read a'
  | _, [], _ => by
    unfold Memory.write
    by_cases hb : b = unlisted a
    · by_cases h : a' = a <;> simp [hb, h, Memory.read]
    · simp [hb, Memory.read]
  | lo, c :: m, hm => by
    simp only [Memory.wfFrom, Bool.and_eq_true, decide_eq_true_eq] at hm
    obtain ⟨⟨⟨_, _⟩, _⟩, hrest⟩ := hm
    unfold Memory.write
    by_cases h1 : a < c.1
    · simp only [h1, if_true]
      by_cases hb : b = unlisted a
      · simp only [hb, if_true]
        by_cases h : a' = a
        · subst h
          have hne : a' ≠ c.1 := by omega
          simp only [Memory.read, hne, if_false, if_true]
          exact Memory.read_below (by omega) hrest
        · simp [h]
      · simp [hb, Memory.read]
    · simp only [h1, if_false]
      by_cases h2 : a = c.1
      · simp only [h2, if_true]
        by_cases hb : b = unlisted c.1
        · simp only [hb, if_true]
          by_cases h : a' = c.1
          · subst h
            simp only [if_true]
            exact Memory.read_below (Nat.lt_succ_self _) hrest
          · simp [h, Memory.read]
        · by_cases h : a' = c.1 <;> simp [hb, h, Memory.read]
      · simp only [h2, if_false]
        have ih := Memory.read_write a b a' hrest
        by_cases h : a' = c.1
        · have hne : c.1 ≠ a := fun e => h2 e.symm
          simp [Memory.read, h, hne]
        · simp [Memory.read, h, ih]

/-- A write inside memory keeps the canonical form. -/
theorem Memory.wfFrom_write {a : Nat} {b : Byte} (ha : a < Config.memSize) :
    ∀ {lo : Nat} {m : Memory}, lo ≤ a → m.wfFrom lo = true → (Memory.write a b m).wfFrom lo = true
  | lo, [], hlo, _ => by
    unfold Memory.write
    by_cases hb : b = unlisted a
    · simp [hb, Memory.wfFrom]
    · simp [hb, Memory.wfFrom, hlo, ha]
  | lo, c :: m, hlo, hm => by
    have hm' := hm
    simp only [Memory.wfFrom, Bool.and_eq_true, decide_eq_true_eq] at hm
    obtain ⟨⟨⟨hl, hs⟩, hd⟩, hrest⟩ := hm
    unfold Memory.write
    by_cases h1 : a < c.1
    · simp only [h1, if_true]
      by_cases hb : b = unlisted a
      · simpa only [hb, if_true] using hm'
      · simp only [hb, if_false, Memory.wfFrom, Bool.and_eq_true, decide_eq_true_eq]
        exact ⟨⟨⟨hlo, ha⟩, hb⟩, ⟨⟨by omega, hs⟩, hd⟩, hrest⟩
    · simp only [h1, if_false]
      by_cases h2 : a = c.1
      · simp only [h2, if_true]
        by_cases hb : b = unlisted c.1
        · simp only [hb, if_true]
          exact Memory.wfFrom_mono (by omega) hrest
        · simp only [hb, if_false, Memory.wfFrom, Bool.and_eq_true, decide_eq_true_eq]
          exact ⟨⟨⟨hl, hs⟩, hb⟩, hrest⟩
      · simp only [h2, if_false, Memory.wfFrom, Bool.and_eq_true, decide_eq_true_eq]
        exact ⟨⟨⟨hl, hs⟩, hd⟩, Memory.wfFrom_write ha (by omega) hrest⟩

/-- EVERY WRITE OF THE MACHINE KEEPS THE CANONICAL FORM. -/
theorem State.memWrite_wf {s : State} (h : s.mem.wf = true) (a : Nat) (b : Byte) : (s.memWrite a b).mem.wf = true :=
  Memory.wfFrom_write (Nat.mod_lt _ (by decide)) (Nat.zero_le _) h

/-- Read after write on the machine's addresses, which are taken modulo 4096. -/
theorem State.memRead_memWrite {s : State} (h : s.mem.wf = true) (a : Nat) (b : Byte) (p : Nat) :
    (s.memWrite a b).memRead p = if p % 4096 = a % 4096 then b else s.memRead p :=
  Memory.read_write _ _ _ h

/-- Storing a run of bytes keeps the canonical form. -/
theorem State.storeBytes_wf : ∀ (bs : List Byte) {s : State} (_ : s.mem.wf = true) (a : Nat),
    (s.storeBytes a bs).mem.wf = true
  | [], _, h, _ => h
  | b :: bs, _, h, a => State.storeBytes_wf bs (State.memWrite_wf h a b) (a + 1)

/-- ALL THAT STORING A RUN OF BYTES CHANGES IS MEMORY: the state it answers is the old one with another memory. -/
theorem State.storeBytes_eq : ∀ (bs : List Byte) (s : State) (a : Nat),
    s.storeBytes a bs = { s with mem := (s.storeBytes a bs).mem }
  | [], _, _ => rfl
  | b :: bs, s, a => State.storeBytes_eq bs (s.memWrite a b) (a + 1)

/-- An address outside the run reads as before. -/
theorem State.memRead_storeBytes_outside : ∀ (bs : List Byte) {s : State} (_ : s.mem.wf = true) (a p : Nat)
    (_ : ∀ k, k < bs.length → p % 4096 ≠ (a + k) % 4096), (s.storeBytes a bs).memRead p = s.memRead p
  | [], _, _, _, _, _ => rfl
  | b :: bs, s, h, a, p, hp => by
    have h0 : p % 4096 ≠ a % 4096 := hp 0 (Nat.succ_pos _)
    have hrest : ∀ k, k < bs.length → p % 4096 ≠ (a + 1 + k) % 4096 := fun k hk => by
      have := hp (k + 1) (by simpa using hk)
      rwa [show a + 1 + k = a + (k + 1) by omega]
    rw [State.storeBytes, State.memRead_storeBytes_outside bs (State.memWrite_wf h a b) (a + 1) p hrest,
      State.memRead_memWrite h, if_neg h0]

/-- Byte `k` of a run of at most 4096 bytes is read back at `a + k`. -/
theorem State.memRead_storeBytes : ∀ (bs : List Byte) {s : State} (_ : s.mem.wf = true) (a k : Nat)
    (hk : k < bs.length) (_ : bs.length ≤ 4096), (s.storeBytes a bs).memRead (a + k) = bs[k]
  | b :: bs, s, h, a, 0, _, hl => by
    have hout : ∀ k, k < bs.length → a % 4096 ≠ (a + 1 + k) % 4096 := fun k hk => by
      simp only [List.length_cons] at hl
      omega
    show ((s.memWrite a b).storeBytes (a + 1) bs).memRead a = b
    rw [State.memRead_storeBytes_outside bs (State.memWrite_wf h a b) (a + 1) a hout, State.memRead_memWrite h,
      if_pos rfl]
  | b :: bs, s, h, a, k + 1, hk, hl => by
    have := State.memRead_storeBytes bs (State.memWrite_wf h a b) (a + 1) k (by simpa using hk)
      (by simp only [List.length_cons] at hl; omega)
    rw [State.storeBytes, show a + (k + 1) = a + 1 + k by omega, this]
    rfl

/-- Memory right after reset is canonical. -/
theorem reset_mem_wf : State.reset.mem.wf = true := rfl

end Sys2Proof.Machine
end

