-- ==== Sys2Proof/Laws/Ops.lean ====
section
/-! SUPPORT. What each shared operation does, once: registers, pc and I, the stack, skips, byte runs, the block
transfers, the key scan, and the arithmetic as numbers. -/

namespace Sys2Proof.Machine

/-! General registers. -/

/-- A register reads what was written to it, and every other register as before. -/
theorem State.reg_setReg (s : State) (x : RegIdx) (b : Byte) (r : RegIdx) :
    (s.setReg x b).reg r = if r = x then b else s.reg r := by
  unfold State.reg State.setReg
  rw [Vector.getElem_set]
  by_cases h : r = x
  · subst h; simp
  · have hne : x.toNat ≠ r.toNat := fun e => h (BitVec.eq_of_toNat_eq e.symm)
    simp [h, hne]

@[simp] theorem State.reg_setReg_self (s : State) (x : RegIdx) (b : Byte) : (s.setReg x b).reg x = b := by
  simp [State.reg_setReg]

theorem State.reg_setReg_ne (s : State) {x r : RegIdx} (b : Byte) (h : r ≠ x) : (s.setReg x b).reg r = s.reg r := by
  simp [State.reg_setReg, h]

/-- The write order of class 8: the flag register holds the flag, the destination the result unless it is the flag
register, every other register what it held. -/
theorem State.reg_setResultThenFlag (s : State) (x : RegIdx) (a f : Byte) (r : RegIdx) :
    (s.setResultThenFlag x a f).reg r = if r = 15 then f else if r = x then a else s.reg r := by
  simp only [State.setResultThenFlag, State.setFlag, State.reg_setReg]

/-- All that a register write changes is the register file. -/
theorem State.setResultThenFlag_eq (s : State) (x : RegIdx) (a f : Byte) :
    s.setResultThenFlag x a f = { s with v := (s.setResultThenFlag x a f).v } := rfl

/-! pc and I. -/

theorem toNat_mod4096 (a : Nat) : (BitVec.ofNat 16 (a % Config.memSize)).toNat = a % 4096 := by
  simp only [Config.memSize, BitVec.toNat_ofNat]
  omega

/-- pc reads the target modulo 4096. -/
theorem State.setPc_toNat (s : State) (a : Nat) : (s.setPc a).pc.toNat = a % 4096 := toNat_mod4096 a

/-- I reads the value modulo 4096. -/
theorem State.setI_toNat (s : State) (a : Nat) : (s.setI a).i.toNat = a % 4096 := toNat_mod4096 a

/-- The advance is 2 modulo 4096. -/
theorem State.advancePc_toNat (s : State) : s.advancePc.pc.toNat = (s.pc.toNat + 2) % 4096 := toNat_mod4096 _

/-- All that the advance changes is pc. -/
theorem State.advancePc_eq (s : State) : s.advancePc = { s with pc := s.advancePc.pc } := rfl

/-- A skip is the advance when taken, nothing otherwise. -/
theorem State.skipIf_toNat (s : State) (c : Bool) :
    (s.skipIf c).pc.toNat = if c then (s.pc.toNat + 2) % 4096 else s.pc.toNat := by
  cases c
  · rfl
  · exact State.advancePc_toNat s

/-- All that a skip changes is pc. -/
theorem State.skipIf_eq (s : State) (c : Bool) : s.skipIf c = { s with pc := (s.skipIf c).pc } := by
  cases c <;> rfl

/-! The stack. -/

/-- A push writes the slot at SP and no other. -/
theorem State.stackSlot_push (s : State) (w : Word) (k : Nat) (hk : k < 16) :
    (s.push w).stackSlot k = if k = s.sp.toNat then w else s.stackSlot k := by
  unfold State.stackSlot State.push
  simp only [hk, dif_pos]
  rw [Vector.getElem_setIfInBounds]
  by_cases h : k = s.sp.toNat
  · simp [h]
  · have hne : s.sp.toNat ≠ k := fun e => h e.symm
    simp [h, hne]

/-- Below the top of the number range, a push counts one more. -/
theorem State.push_sp_toNat (s : State) (w : Word) (h : s.sp.toNat < 16) : (s.push w).sp.toNat = s.sp.toNat + 1 := by
  simp only [State.push_sp, BitVec.toNat_add]
  simp
  omega

/-- From a non-empty stack, a pop counts one less. -/
theorem State.dropTop_sp_toNat (s : State) (h : 0 < s.sp.toNat) : s.dropTop.sp.toNat = s.sp.toNat - 1 := by
  have := s.sp.isLt
  simp only [State.dropTop_sp, BitVec.toNat_sub]
  simp
  omega

/-! Runs of bytes. -/

@[simp] theorem State.storeBytes_nil (s : State) (a : Nat) : s.storeBytes a [] = s := rfl

@[simp] theorem State.storeBytes_cons (s : State) (a : Nat) (b : Byte) (bs : List Byte) :
    s.storeBytes a (b :: bs) = (s.memWrite a b).storeBytes (a + 1) bs := rfl

/-! The block transfers. -/

/-- The range holds exactly the indices up to x. -/
theorem mem_regRange {x k : RegIdx} : k ∈ regRange x ↔ k.toNat ≤ x.toNat := by
  unfold regRange
  simp only [List.mem_map, List.mem_range]
  constructor
  · rintro ⟨n, hn, rfl⟩
    have := x.isLt
    simp only [BitVec.toNat_ofNat]
    omega
  · intro h
    exact ⟨k.toNat, by omega, by simp⟩

theorem regRange_length (x : RegIdx) : (regRange x).length = x.toNat + 1 := by
  simp [regRange]

/-- Entry `n` of the range is the index `n`. -/
theorem regRange_getElem (x : RegIdx) (n : Nat) (h : n < (regRange x).length) : (regRange x)[n] = BitVec.ofNat 4 n := by
  simp [regRange]

/-- I after a block transfer. -/
theorem State.bumpI_toNat (s : State) (x : RegIdx) :
    (s.bumpI x).i.toNat = if s.quirks.memioIncI then (s.i.toNat + x.toNat + 1) % 4096 else s.i.toNat := by
  unfold State.bumpI
  cases s.quirks.memioIncI
  · rfl
  · exact State.setI_toNat s _

/-- All that the increment changes is I. -/
theorem State.bumpI_eq (s : State) (x : RegIdx) : s.bumpI x = { s with i := (s.bumpI x).i } := by
  unfold State.bumpI
  cases s.quirks.memioIncI <;> rfl

/-- The fold of register loads: listed registers take the value computed for them, others keep theirs. -/
theorem foldl_setReg_reg (f : RegIdx → Byte) (r : RegIdx) : ∀ (ks : List RegIdx) (t : State),
    (ks.foldl (fun t k => t.setReg k (f k)) t).reg r = if r ∈ ks then f r else t.reg r
  | [], _ => by simp
  | k :: ks, t => by
    rw [List.foldl_cons, foldl_setReg_reg f r ks, State.reg_setReg]
    by_cases h : r = k
    · subst h; simp
    · simp [h]

/-- All that the fold changes is the register file. -/
theorem foldl_setReg_eq (f : RegIdx → Byte) : ∀ (ks : List RegIdx) (t : State),
    ks.foldl (fun t k => t.setReg k (f k)) t = { t with v := (ks.foldl (fun t k => t.setReg k (f k)) t).v }
  | [], _ => rfl
  | k :: ks, t => foldl_setReg_eq f ks (t.setReg k (f k))

/-- A block load gives each register of the list the byte at I + its index, and leaves the others. -/
theorem loadRegsFrom_reg (s : State) (ks : List RegIdx) (r : RegIdx) :
    (loadRegsFrom s ks).reg r = if r ∈ ks then s.memRead (s.i.toNat + r.toNat) else s.reg r :=
  foldl_setReg_reg _ r ks s

/-- All that a block load changes is the register file. -/
theorem loadRegsFrom_eq (s : State) (ks : List RegIdx) : loadRegsFrom s ks = { s with v := (loadRegsFrom s ks).v } :=
  foldl_setReg_eq _ ks s

/-! The key scan. -/

/-- The scan answers the lowest active line. -/
theorem scanKeys_eq_some {s : State} {k : Nat} :
    scanKeys s = some k ↔ k < 16 ∧ s.keyActive k = true ∧ ∀ j, j < k → s.keyActive j = false := by
  unfold scanKeys
  rw [List.find?_range_eq_some]
  simp only [List.mem_range, Bool.not_eq_eq_eq_not, Bool.not_true]
  constructor
  · rintro ⟨h1, h2, h3⟩; exact ⟨h2, h1, h3⟩
  · rintro ⟨h1, h2, h3⟩; exact ⟨h2, h1, h3⟩

/-- The scan answers nothing when no line is active. -/
theorem scanKeys_eq_none {s : State} : scanKeys s = none ↔ ∀ j, j < 16 → s.keyActive j = false := by
  unfold scanKeys
  simp

/-! Arithmetic as numbers. -/

theorem flagOf_toNat (c : Bool) : (flagOf c).toNat = if c then 1 else 0 := by cases c <;> rfl

theorem addBytes_toNat (a b : Byte) : (addBytes a b).toNat = (a.toNat + b.toNat) % 256 := by
  simp [addBytes]

theorem subBytes_toNat (a b : Byte) : (subBytes a b).toNat = (256 + a.toNat - b.toNat) % 256 := by
  have := a.isLt
  have := b.isLt
  simp only [subBytes, BitVec.toNat_ofInt]
  omega

theorem carryFlag_toNat (a b : Byte) : (carryFlag a b).toNat = if 255 < a.toNat + b.toNat then 1 else 0 := by
  simp [carryFlag, flagOf_toNat]

theorem noBorrowFlag_toNat (a b : Byte) : (noBorrowFlag a b).toNat = if b.toNat ≤ a.toNat then 1 else 0 := by
  simp [noBorrowFlag, flagOf_toNat]

theorem shiftRightOne_toNat (a : Byte) : (shiftRightOne a).toNat = a.toNat / 2 := by
  have := a.isLt
  simp only [shiftRightOne, BitVec.toNat_ofNat]
  omega

theorem shiftLeftOne_toNat (a : Byte) : (shiftLeftOne a).toNat = a.toNat * 2 % 256 := by
  simp [shiftLeftOne]

theorem shiftedOutRight_toNat (a : Byte) : (shiftedOutRight a).toNat = a.toNat % 2 := by
  simp only [shiftedOutRight, flagOf_toNat, BitVec.getLsbD, Nat.testBit_zero]
  have : a.toNat % 2 = 0 ∨ a.toNat % 2 = 1 := by omega
  rcases this with h | h <;> simp [h]

theorem shiftedOutLeft_toNat (a : Byte) : (shiftedOutLeft a).toNat = a.toNat / 128 := by
  have hlt := a.isLt
  simp only [shiftedOutLeft, flagOf_toNat, BitVec.getLsbD, Nat.testBit_eq_decide_div_mod_eq]
  have : a.toNat / 128 = 0 ∨ a.toNat / 128 = 1 := by omega
  rcases this with h | h <;> simp [h]

end Sys2Proof.Machine
end

