-- ==== Sys2Proof/Laws/Frames.lean ====
section
/-! SUPPORT. What the composed operations leave the same, field by field: each changes one field alone. -/

namespace Sys2Proof.Machine

variable (s : State)

/-! `advancePc` changes `pc` alone. -/

@[simp] theorem State.advancePc_v : (s.advancePc).v = s.v := by rw [State.advancePc_eq s]
@[simp] theorem State.advancePc_i : (s.advancePc).i = s.i := by rw [State.advancePc_eq s]
@[simp] theorem State.advancePc_sp : (s.advancePc).sp = s.sp := by rw [State.advancePc_eq s]
@[simp] theorem State.advancePc_stack : (s.advancePc).stack = s.stack := by rw [State.advancePc_eq s]
@[simp] theorem State.advancePc_dt : (s.advancePc).dt = s.dt := by rw [State.advancePc_eq s]
@[simp] theorem State.advancePc_st : (s.advancePc).st = s.st := by rw [State.advancePc_eq s]
@[simp] theorem State.advancePc_keys : (s.advancePc).keys = s.keys := by rw [State.advancePc_eq s]
@[simp] theorem State.advancePc_disp : (s.advancePc).disp = s.disp := by rw [State.advancePc_eq s]
@[simp] theorem State.advancePc_mem : (s.advancePc).mem = s.mem := by rw [State.advancePc_eq s]
@[simp] theorem State.advancePc_wait : (s.advancePc).wait = s.wait := by rw [State.advancePc_eq s]
@[simp] theorem State.advancePc_quirks : (s.advancePc).quirks = s.quirks := by rw [State.advancePc_eq s]
@[simp] theorem State.advancePc_draws : (s.advancePc).draws = s.draws := by rw [State.advancePc_eq s]
@[simp] theorem State.advancePc_diags : (s.advancePc).diags = s.diags := by rw [State.advancePc_eq s]
@[simp] theorem State.advancePc_reg (r : RegIdx) : (s.advancePc).reg r = s.reg r := by rw [State.advancePc_eq s]; rfl
@[simp] theorem State.advancePc_memRead (p : Nat) : (s.advancePc).memRead p = s.memRead p := by rw [State.advancePc_eq s]; rfl
@[simp] theorem State.advancePc_stackSlot (k : Nat) : (s.advancePc).stackSlot k = s.stackSlot k := by rw [State.advancePc_eq s]; rfl
@[simp] theorem State.advancePc_keyActive (k : Nat) : (s.advancePc).keyActive k = s.keyActive k := by rw [State.advancePc_eq s]; rfl

/-! `skipIf` changes `pc` alone. -/

@[simp] theorem State.skipIf_v (c : Bool) : (s.skipIf c).v = s.v := by rw [State.skipIf_eq s c]
@[simp] theorem State.skipIf_i (c : Bool) : (s.skipIf c).i = s.i := by rw [State.skipIf_eq s c]
@[simp] theorem State.skipIf_sp (c : Bool) : (s.skipIf c).sp = s.sp := by rw [State.skipIf_eq s c]
@[simp] theorem State.skipIf_stack (c : Bool) : (s.skipIf c).stack = s.stack := by rw [State.skipIf_eq s c]
@[simp] theorem State.skipIf_dt (c : Bool) : (s.skipIf c).dt = s.dt := by rw [State.skipIf_eq s c]
@[simp] theorem State.skipIf_st (c : Bool) : (s.skipIf c).st = s.st := by rw [State.skipIf_eq s c]
@[simp] theorem State.skipIf_keys (c : Bool) : (s.skipIf c).keys = s.keys := by rw [State.skipIf_eq s c]
@[simp] theorem State.skipIf_disp (c : Bool) : (s.skipIf c).disp = s.disp := by rw [State.skipIf_eq s c]
@[simp] theorem State.skipIf_mem (c : Bool) : (s.skipIf c).mem = s.mem := by rw [State.skipIf_eq s c]
@[simp] theorem State.skipIf_wait (c : Bool) : (s.skipIf c).wait = s.wait := by rw [State.skipIf_eq s c]
@[simp] theorem State.skipIf_quirks (c : Bool) : (s.skipIf c).quirks = s.quirks := by rw [State.skipIf_eq s c]
@[simp] theorem State.skipIf_draws (c : Bool) : (s.skipIf c).draws = s.draws := by rw [State.skipIf_eq s c]
@[simp] theorem State.skipIf_diags (c : Bool) : (s.skipIf c).diags = s.diags := by rw [State.skipIf_eq s c]
@[simp] theorem State.skipIf_reg (c : Bool) (r : RegIdx) : (s.skipIf c).reg r = s.reg r := by rw [State.skipIf_eq s c]; rfl
@[simp] theorem State.skipIf_memRead (c : Bool) (p : Nat) : (s.skipIf c).memRead p = s.memRead p := by rw [State.skipIf_eq s c]; rfl
@[simp] theorem State.skipIf_stackSlot (c : Bool) (k : Nat) : (s.skipIf c).stackSlot k = s.stackSlot k := by rw [State.skipIf_eq s c]; rfl
@[simp] theorem State.skipIf_keyActive (c : Bool) (k : Nat) : (s.skipIf c).keyActive k = s.keyActive k := by rw [State.skipIf_eq s c]; rfl

/-! `setFlag` changes `v` alone. -/

@[simp] theorem State.setFlag_i (b : Byte) : (s.setFlag b).i = s.i := rfl
@[simp] theorem State.setFlag_pc (b : Byte) : (s.setFlag b).pc = s.pc := rfl
@[simp] theorem State.setFlag_sp (b : Byte) : (s.setFlag b).sp = s.sp := rfl
@[simp] theorem State.setFlag_stack (b : Byte) : (s.setFlag b).stack = s.stack := rfl
@[simp] theorem State.setFlag_dt (b : Byte) : (s.setFlag b).dt = s.dt := rfl
@[simp] theorem State.setFlag_st (b : Byte) : (s.setFlag b).st = s.st := rfl
@[simp] theorem State.setFlag_keys (b : Byte) : (s.setFlag b).keys = s.keys := rfl
@[simp] theorem State.setFlag_disp (b : Byte) : (s.setFlag b).disp = s.disp := rfl
@[simp] theorem State.setFlag_mem (b : Byte) : (s.setFlag b).mem = s.mem := rfl
@[simp] theorem State.setFlag_wait (b : Byte) : (s.setFlag b).wait = s.wait := rfl
@[simp] theorem State.setFlag_quirks (b : Byte) : (s.setFlag b).quirks = s.quirks := rfl
@[simp] theorem State.setFlag_draws (b : Byte) : (s.setFlag b).draws = s.draws := rfl
@[simp] theorem State.setFlag_diags (b : Byte) : (s.setFlag b).diags = s.diags := rfl
@[simp] theorem State.setFlag_memRead (b : Byte) (p : Nat) : (s.setFlag b).memRead p = s.memRead p := rfl
@[simp] theorem State.setFlag_stackSlot (b : Byte) (k : Nat) : (s.setFlag b).stackSlot k = s.stackSlot k := rfl
@[simp] theorem State.setFlag_keyActive (b : Byte) (k : Nat) : (s.setFlag b).keyActive k = s.keyActive k := rfl

/-! `setResultThenFlag` changes `v` alone. -/

@[simp] theorem State.setResultThenFlag_i (x : RegIdx) (a f : Byte) : (s.setResultThenFlag x a f).i = s.i := rfl
@[simp] theorem State.setResultThenFlag_pc (x : RegIdx) (a f : Byte) : (s.setResultThenFlag x a f).pc = s.pc := rfl
@[simp] theorem State.setResultThenFlag_sp (x : RegIdx) (a f : Byte) : (s.setResultThenFlag x a f).sp = s.sp := rfl
@[simp] theorem State.setResultThenFlag_stack (x : RegIdx) (a f : Byte) : (s.setResultThenFlag x a f).stack = s.stack := rfl
@[simp] theorem State.setResultThenFlag_dt (x : RegIdx) (a f : Byte) : (s.setResultThenFlag x a f).dt = s.dt := rfl
@[simp] theorem State.setResultThenFlag_st (x : RegIdx) (a f : Byte) : (s.setResultThenFlag x a f).st = s.st := rfl
@[simp] theorem State.setResultThenFlag_keys (x : RegIdx) (a f : Byte) : (s.setResultThenFlag x a f).keys = s.keys := rfl
@[simp] theorem State.setResultThenFlag_disp (x : RegIdx) (a f : Byte) : (s.setResultThenFlag x a f).disp = s.disp := rfl
@[simp] theorem State.setResultThenFlag_mem (x : RegIdx) (a f : Byte) : (s.setResultThenFlag x a f).mem = s.mem := rfl
@[simp] theorem State.setResultThenFlag_wait (x : RegIdx) (a f : Byte) : (s.setResultThenFlag x a f).wait = s.wait := rfl
@[simp] theorem State.setResultThenFlag_quirks (x : RegIdx) (a f : Byte) : (s.setResultThenFlag x a f).quirks = s.quirks := rfl
@[simp] theorem State.setResultThenFlag_draws (x : RegIdx) (a f : Byte) : (s.setResultThenFlag x a f).draws = s.draws := rfl
@[simp] theorem State.setResultThenFlag_diags (x : RegIdx) (a f : Byte) : (s.setResultThenFlag x a f).diags = s.diags := rfl
@[simp] theorem State.setResultThenFlag_memRead (x : RegIdx) (a f : Byte) (p : Nat) : (s.setResultThenFlag x a f).memRead p = s.memRead p := rfl
@[simp] theorem State.setResultThenFlag_stackSlot (x : RegIdx) (a f : Byte) (k : Nat) : (s.setResultThenFlag x a f).stackSlot k = s.stackSlot k := rfl
@[simp] theorem State.setResultThenFlag_keyActive (x : RegIdx) (a f : Byte) (k : Nat) : (s.setResultThenFlag x a f).keyActive k = s.keyActive k := rfl

/-! `bumpI` changes `i` alone. -/

@[simp] theorem State.bumpI_v (x : RegIdx) : (s.bumpI x).v = s.v := by rw [State.bumpI_eq s x]
@[simp] theorem State.bumpI_pc (x : RegIdx) : (s.bumpI x).pc = s.pc := by rw [State.bumpI_eq s x]
@[simp] theorem State.bumpI_sp (x : RegIdx) : (s.bumpI x).sp = s.sp := by rw [State.bumpI_eq s x]
@[simp] theorem State.bumpI_stack (x : RegIdx) : (s.bumpI x).stack = s.stack := by rw [State.bumpI_eq s x]
@[simp] theorem State.bumpI_dt (x : RegIdx) : (s.bumpI x).dt = s.dt := by rw [State.bumpI_eq s x]
@[simp] theorem State.bumpI_st (x : RegIdx) : (s.bumpI x).st = s.st := by rw [State.bumpI_eq s x]
@[simp] theorem State.bumpI_keys (x : RegIdx) : (s.bumpI x).keys = s.keys := by rw [State.bumpI_eq s x]
@[simp] theorem State.bumpI_disp (x : RegIdx) : (s.bumpI x).disp = s.disp := by rw [State.bumpI_eq s x]
@[simp] theorem State.bumpI_mem (x : RegIdx) : (s.bumpI x).mem = s.mem := by rw [State.bumpI_eq s x]
@[simp] theorem State.bumpI_wait (x : RegIdx) : (s.bumpI x).wait = s.wait := by rw [State.bumpI_eq s x]
@[simp] theorem State.bumpI_quirks (x : RegIdx) : (s.bumpI x).quirks = s.quirks := by rw [State.bumpI_eq s x]
@[simp] theorem State.bumpI_draws (x : RegIdx) : (s.bumpI x).draws = s.draws := by rw [State.bumpI_eq s x]
@[simp] theorem State.bumpI_diags (x : RegIdx) : (s.bumpI x).diags = s.diags := by rw [State.bumpI_eq s x]
@[simp] theorem State.bumpI_reg (x : RegIdx) (r : RegIdx) : (s.bumpI x).reg r = s.reg r := by rw [State.bumpI_eq s x]; rfl
@[simp] theorem State.bumpI_memRead (x : RegIdx) (p : Nat) : (s.bumpI x).memRead p = s.memRead p := by rw [State.bumpI_eq s x]; rfl
@[simp] theorem State.bumpI_stackSlot (x : RegIdx) (k : Nat) : (s.bumpI x).stackSlot k = s.stackSlot k := by rw [State.bumpI_eq s x]; rfl
@[simp] theorem State.bumpI_keyActive (x : RegIdx) (k : Nat) : (s.bumpI x).keyActive k = s.keyActive k := by rw [State.bumpI_eq s x]; rfl

/-! `storeBytes` changes `mem` alone. -/

@[simp] theorem State.storeBytes_v (a : Nat) (bs : List Byte) : (s.storeBytes a bs).v = s.v := by rw [State.storeBytes_eq bs s a]
@[simp] theorem State.storeBytes_i (a : Nat) (bs : List Byte) : (s.storeBytes a bs).i = s.i := by rw [State.storeBytes_eq bs s a]
@[simp] theorem State.storeBytes_pc (a : Nat) (bs : List Byte) : (s.storeBytes a bs).pc = s.pc := by rw [State.storeBytes_eq bs s a]
@[simp] theorem State.storeBytes_sp (a : Nat) (bs : List Byte) : (s.storeBytes a bs).sp = s.sp := by rw [State.storeBytes_eq bs s a]
@[simp] theorem State.storeBytes_stack (a : Nat) (bs : List Byte) : (s.storeBytes a bs).stack = s.stack := by rw [State.storeBytes_eq bs s a]
@[simp] theorem State.storeBytes_dt (a : Nat) (bs : List Byte) : (s.storeBytes a bs).dt = s.dt := by rw [State.storeBytes_eq bs s a]
@[simp] theorem State.storeBytes_st (a : Nat) (bs : List Byte) : (s.storeBytes a bs).st = s.st := by rw [State.storeBytes_eq bs s a]
@[simp] theorem State.storeBytes_keys (a : Nat) (bs : List Byte) : (s.storeBytes a bs).keys = s.keys := by rw [State.storeBytes_eq bs s a]
@[simp] theorem State.storeBytes_disp (a : Nat) (bs : List Byte) : (s.storeBytes a bs).disp = s.disp := by rw [State.storeBytes_eq bs s a]
@[simp] theorem State.storeBytes_wait (a : Nat) (bs : List Byte) : (s.storeBytes a bs).wait = s.wait := by rw [State.storeBytes_eq bs s a]
@[simp] theorem State.storeBytes_quirks (a : Nat) (bs : List Byte) : (s.storeBytes a bs).quirks = s.quirks := by rw [State.storeBytes_eq bs s a]
@[simp] theorem State.storeBytes_draws (a : Nat) (bs : List Byte) : (s.storeBytes a bs).draws = s.draws := by rw [State.storeBytes_eq bs s a]
@[simp] theorem State.storeBytes_diags (a : Nat) (bs : List Byte) : (s.storeBytes a bs).diags = s.diags := by rw [State.storeBytes_eq bs s a]
@[simp] theorem State.storeBytes_reg (a : Nat) (bs : List Byte) (r : RegIdx) : (s.storeBytes a bs).reg r = s.reg r := by rw [State.storeBytes_eq bs s a]; rfl
@[simp] theorem State.storeBytes_stackSlot (a : Nat) (bs : List Byte) (k : Nat) : (s.storeBytes a bs).stackSlot k = s.stackSlot k := by rw [State.storeBytes_eq bs s a]; rfl
@[simp] theorem State.storeBytes_keyActive (a : Nat) (bs : List Byte) (k : Nat) : (s.storeBytes a bs).keyActive k = s.keyActive k := by rw [State.storeBytes_eq bs s a]; rfl

/-! `loadRegsFrom` changes `v` alone. -/

@[simp] theorem loadRegsFrom_i (ks : List RegIdx) : (loadRegsFrom s ks).i = s.i := by rw [loadRegsFrom_eq s ks]
@[simp] theorem loadRegsFrom_pc (ks : List RegIdx) : (loadRegsFrom s ks).pc = s.pc := by rw [loadRegsFrom_eq s ks]
@[simp] theorem loadRegsFrom_sp (ks : List RegIdx) : (loadRegsFrom s ks).sp = s.sp := by rw [loadRegsFrom_eq s ks]
@[simp] theorem loadRegsFrom_stack (ks : List RegIdx) : (loadRegsFrom s ks).stack = s.stack := by rw [loadRegsFrom_eq s ks]
@[simp] theorem loadRegsFrom_dt (ks : List RegIdx) : (loadRegsFrom s ks).dt = s.dt := by rw [loadRegsFrom_eq s ks]
@[simp] theorem loadRegsFrom_st (ks : List RegIdx) : (loadRegsFrom s ks).st = s.st := by rw [loadRegsFrom_eq s ks]
@[simp] theorem loadRegsFrom_keys (ks : List RegIdx) : (loadRegsFrom s ks).keys = s.keys := by rw [loadRegsFrom_eq s ks]
@[simp] theorem loadRegsFrom_disp (ks : List RegIdx) : (loadRegsFrom s ks).disp = s.disp := by rw [loadRegsFrom_eq s ks]
@[simp] theorem loadRegsFrom_mem (ks : List RegIdx) : (loadRegsFrom s ks).mem = s.mem := by rw [loadRegsFrom_eq s ks]
@[simp] theorem loadRegsFrom_wait (ks : List RegIdx) : (loadRegsFrom s ks).wait = s.wait := by rw [loadRegsFrom_eq s ks]
@[simp] theorem loadRegsFrom_quirks (ks : List RegIdx) : (loadRegsFrom s ks).quirks = s.quirks := by rw [loadRegsFrom_eq s ks]
@[simp] theorem loadRegsFrom_draws (ks : List RegIdx) : (loadRegsFrom s ks).draws = s.draws := by rw [loadRegsFrom_eq s ks]
@[simp] theorem loadRegsFrom_diags (ks : List RegIdx) : (loadRegsFrom s ks).diags = s.diags := by rw [loadRegsFrom_eq s ks]
@[simp] theorem loadRegsFrom_memRead (ks : List RegIdx) (p : Nat) : (loadRegsFrom s ks).memRead p = s.memRead p := by rw [loadRegsFrom_eq s ks]; rfl
@[simp] theorem loadRegsFrom_stackSlot (ks : List RegIdx) (k : Nat) : (loadRegsFrom s ks).stackSlot k = s.stackSlot k := by rw [loadRegsFrom_eq s ks]; rfl
@[simp] theorem loadRegsFrom_keyActive (ks : List RegIdx) (k : Nat) : (loadRegsFrom s ks).keyActive k = s.keyActive k := by rw [loadRegsFrom_eq s ks]; rfl

end Sys2Proof.Machine
end

