-- ==== Sys2Proof/Laws/Display.lean ====
section
/-! SUPPORT. The laws of the display: reading a pixel after a toggle, two displays with the same pixels are equal, a
blit as a list of toggled pixels, and that list as the placed mask. -/

namespace Sys2Proof.Machine

/-- A toggled pixel is inverted, every other pixel is as before. -/
theorem Display.pixel_toggle (d : Display) {p q : Nat} (hp : p < 2048) (hq : q < 2048) :
    Display.pixel (Display.toggle d p) q = (Display.pixel d q ^^ decide (q = p)) := by
  have hp' : p / 64 < 32 := by omega
  have hq' : q / 64 < 32 := by omega
  have hm : q % 64 < 64 := Nat.mod_lt _ (by decide)
  simp only [Display.pixel, Display.toggle, hp', hq', dif_pos, Vector.getElem_set]
  by_cases hrow : p / 64 = q / 64
  · simp only [hrow, if_true, BitVec.getLsbD_xor, BitVec.getLsbD_twoPow]
    congr 1
    by_cases h : q = p
    · subst h; simp [hm]
    · have : p % 64 ≠ q % 64 := by omega
      have hmp : p % 64 < 64 := Nat.mod_lt _ (by decide)
      simp [h, this]
  · have : q ≠ p := fun e => hrow (by rw [e])
    simp [hrow, this]

/-- A cleared display has no pixel set. -/
theorem Display.pixel_clear (p : Nat) : Display.pixel Display.clear p = false := by
  unfold Display.pixel Display.clear
  split <;> simp

/-- A display is its 2048 pixels. -/
theorem Display.ext_pixel {d e : Display} (h : ∀ p, p < 2048 → Display.pixel d p = Display.pixel e p) : d = e := by
  apply Vector.ext
  intro r hr
  apply BitVec.eq_of_getLsbD_eq
  intro k hk
  have := h (k + r * 64) (by omega)
  have h1 : (k + r * 64) / 64 = r := by omega
  have h2 : (k + r * 64) % 64 = k := by omega
  simpa only [Display.pixel, h1, h2, hr, dif_pos] using this

/-- The pixels one row of a sprite toggles, in order. -/
def rowPixels (wrap : Bool) (ox y : Nat) (b : Byte) : List Nat :=
  (List.range 8).filterMap (fun col => if b.getLsbD (7 - col) then placedPixel wrap (ox + col) y else none)

/-- The pixels a sprite toggles, in order. -/
def spritePixels (s : State) (ox oy n : Nat) : List Nat :=
  (List.range n).flatMap (fun r => rowPixels s.quirks.spriteWrap ox (oy + r) (s.memRead (s.i.toNat + r)))

/-- A row is the toggles of its pixels. -/
theorem blitRow_eq (wrap : Bool) (ox y : Nat) (b : Byte) (d : Blit) :
    blitRow wrap ox y b d = (rowPixels wrap ox y b).foldl togglePixel d := by
  unfold blitRow rowPixels
  generalize List.range 8 = cols
  induction cols generalizing d with
  | nil => rfl
  | cons c cs ih =>
    rw [List.foldl_cons, List.filterMap_cons, ih]
    unfold blitBit
    by_cases hb : b.getLsbD (7 - c)
    · cases placedPixel wrap (ox + c) y <;> simp only [hb, if_true, List.foldl_cons]
    · simp [hb]

/-- A blit is the toggles of the sprite's pixels. -/
theorem blitRows_eq (s : State) (ox oy n : Nat) :
    blitRows s ox oy n = (spritePixels s ox oy n).foldl togglePixel (s.disp, false) := by
  unfold blitRows spritePixels
  generalize (s.disp, false) = d
  generalize List.range n = rows
  induction rows generalizing d with
  | nil => rfl
  | cons r rs ih => rw [List.foldl_cons, List.flatMap_cons, List.foldl_append, ih, blitRow_eq]

/-- Toggling distinct pixels inverts exactly those, and the collision is that one of them was set. -/
theorem foldl_togglePixel : ∀ (ps : List Nat) (d : Blit), ps.Nodup → (∀ p ∈ ps, p < 2048) →
    (∀ q, q < 2048 → Display.pixel (ps.foldl togglePixel d).1 q = (Display.pixel d.1 q ^^ decide (q ∈ ps))) ∧
    ((ps.foldl togglePixel d).2 = true ↔ d.2 = true ∨ ∃ p ∈ ps, Display.pixel d.1 p = true)
  | [], d, _, _ => by simp
  | p :: ps, d, hn, hlt => by
    rw [List.nodup_cons] at hn
    have hp : p < 2048 := hlt p (by simp)
    have ih := foldl_togglePixel ps (togglePixel d p) hn.2 (fun q hq => hlt q (by simp [hq]))
    rw [List.foldl_cons]
    refine ⟨fun q hq => ?_, ?_⟩
    · rw [ih.1 q hq, togglePixel, Display.pixel_toggle d.1 hp hq]
      by_cases h : q = p
      · subst h; simp [hn.1]
      · simp [h]
    · rw [ih.2]
      have hother : ∀ q ∈ ps, Display.pixel (Display.toggle d.1 p) q = Display.pixel d.1 q := fun q hq => by
        have hne : q ≠ p := fun e => hn.1 (e ▸ hq)
        simp [Display.pixel_toggle d.1 hp (hlt q (by simp [hq])), hne]
      simp only [togglePixel, Bool.or_eq_true, List.mem_cons, exists_eq_or_imp, or_assoc]
      refine or_congr Iff.rfl (or_congr Iff.rfl ⟨?_, ?_⟩)
      · rintro ⟨q, hq, h⟩; exact ⟨q, hq, hother q hq ▸ h⟩
      · rintro ⟨q, hq, h⟩; exact ⟨q, hq, (hother q hq).trans h⟩

/-- Where a pixel of a sprite is placed is where the placed mask says it lands. -/
theorem placedPixel_eq_some {wrap : Bool} {px py p : Nat} :
    placedPixel wrap px py = some p ↔ LandsOn wrap px py p := by
  unfold placedPixel LandsOn
  cases wrap
  · by_cases h : px < 64 ∧ py < 32 <;> simp [h, Config.dispW, Config.dispH, eq_comm]
    omega
  · simp [eq_comm]

/-- A sprite toggles exactly the pixels of its placed mask. -/
theorem mem_spritePixels {s : State} {ox oy n p : Nat} : p ∈ spritePixels s ox oy n ↔ PlacedMask s ox oy n p := by
  simp only [spritePixels, rowPixels, PlacedMask, List.mem_flatMap, List.mem_filterMap, List.mem_range,
    Option.ite_none_right_eq_some, placedPixel_eq_some]
  constructor
  · rintro ⟨r, hr, c, hc, hb, hl⟩; exact ⟨r, c, hr, hc, hb, hl⟩
  · rintro ⟨r, c, hr, hc, hb, hl⟩; exact ⟨r, hr, c, hc, hb, hl⟩

/-- Every pixel a sprite lands on is one of the display's. -/
theorem LandsOn.lt {wrap : Bool} {px py p : Nat} (h : LandsOn wrap px py p) : p < 2048 := by
  unfold LandsOn at h
  cases wrap <;> simp at h <;> omega

/-- One of at most 15 rows and one of 8 columns of a sprite are told by the pixel they land on. -/
theorem LandsOn.inj {wrap : Bool} {ox oy r r' c c' p : Nat} (hr : r < 15) (hr' : r' < 15) (hc : c < 8) (hc' : c' < 8)
    (h : LandsOn wrap (ox + c) (oy + r) p) (h' : LandsOn wrap (ox + c') (oy + r') p) : r = r' ∧ c = c' := by
  unfold LandsOn at h h'
  cases wrap <;> simp at h h' <;> omega

/-- A sprite toggles no pixel twice. -/
theorem spritePixels_nodup (s : State) (ox oy : Nat) {n : Nat} (hn : n < 16) : (spritePixels s ox oy n).Nodup := by
  unfold spritePixels
  rw [List.nodup_flatMap]
  have hrow : ∀ {r c p}, (if ((s.memRead (s.i.toNat + r)).getLsbD (7 - c)) = true then
      placedPixel s.quirks.spriteWrap (ox + c) (oy + r) else none) = some p →
      LandsOn s.quirks.spriteWrap (ox + c) (oy + r) p := fun h =>
    placedPixel_eq_some.mp ((Option.ite_none_right_eq_some.mp h).2)
  refine ⟨fun r hr => ?_, ?_⟩
  · unfold rowPixels
    rw [List.mem_range] at hr
    refine (List.pairwise_filterMap.mpr ?_)
    refine (List.nodup_range (n := 8)).imp_of_mem ?_
    intro c c' hc hc' hne p hp p' hp' he
    subst he
    rw [List.mem_range] at hc hc'
    exact hne (LandsOn.inj (r := r) (r' := r) (by omega) (by omega) hc hc' (hrow hp) (hrow hp')).2
  · refine (List.nodup_range (n := n)).imp_of_mem ?_
    intro r r' hr hr' hne
    rw [List.mem_range] at hr hr'
    intro p hp hp'
    simp only [rowPixels, List.mem_filterMap, List.mem_range] at hp hp'
    obtain ⟨c, hc, h⟩ := hp
    obtain ⟨c', hc', h'⟩ := hp'
    exact hne (LandsOn.inj (by omega) (by omega) hc hc' (hrow h) (hrow h')).1

end Sys2Proof.Machine
end

