-- ==== Sys2Proof/Laws/Encoding.lean ====
section
/-! SUPPORT. The fields of a word and the formats of the encoder as numbers (spec/30_encoding.md R92, R94), and what
each field of each format is. -/

namespace Sys2Proof

theorem fieldC_toNat (w : Word) : (fieldC w).toNat = w.toNat / 4096 % 16 := by
  simp [fieldC, BitVec.extractLsb'_toNat, Nat.shiftRight_eq_div_pow]

theorem fieldX_toNat (w : Word) : (fieldX w).toNat = w.toNat / 256 % 16 := by
  simp [fieldX, BitVec.extractLsb'_toNat, Nat.shiftRight_eq_div_pow]

theorem fieldY_toNat (w : Word) : (fieldY w).toNat = w.toNat / 16 % 16 := by
  simp [fieldY, BitVec.extractLsb'_toNat, Nat.shiftRight_eq_div_pow]

theorem fieldN_toNat (w : Word) : (fieldN w).toNat = w.toNat % 16 := by
  simp [fieldN, BitVec.extractLsb'_toNat]

theorem fieldKk_toNat (w : Word) : (fieldKk w).toNat = w.toNat % 256 := by
  simp [fieldKk, BitVec.extractLsb'_toNat]

theorem fieldNnn_toNat (w : Word) : (fieldNnn w).toNat = w.toNat % 4096 := by
  simp [fieldNnn, BitVec.extractLsb'_toNat]

theorem hiByte_toNat (w : Word) : (hiByte w).toNat = w.toNat / 256 := by
  have := w.isLt
  simp only [hiByte, BitVec.extractLsb'_toNat, Nat.shiftRight_eq_div_pow]
  omega

theorem loByte_toNat (w : Word) : (loByte w).toNat = w.toNat % 256 := by
  simp [loByte, BitVec.extractLsb'_toNat]

/-- Big-endian: the first byte is worth 256 (spec/20_memory.md R66). -/
theorem wordOfBytes_toNat (hi lo : Byte) : (wordOfBytes hi lo).toNat = hi.toNat * 256 + lo.toNat := by
  unfold wordOfBytes
  rw [BitVec.toNat_append, ← Nat.shiftLeft_add_eq_or_of_lt lo.isLt, Nat.shiftLeft_eq]

/-- A word is what its two bytes make. -/
theorem wordOfBytes_bytes (w : Word) : wordOfBytes (hiByte w) (loByte w) = w := by
  apply BitVec.eq_of_toNat_eq
  rw [wordOfBytes_toNat, hiByte_toNat, loByte_toNat]
  omega

theorem formatA_toNat (c : Nibble) (nnn : Addr) : (formatA c nnn).toNat = c.toNat * 4096 + nnn.toNat := by
  unfold formatA
  rw [BitVec.toNat_append, ← Nat.shiftLeft_add_eq_or_of_lt nnn.isLt, Nat.shiftLeft_eq]

theorem formatXK_toNat (c : Nibble) (x : RegIdx) (kk : Byte) :
    (formatXK c x kk).toNat = c.toNat * 4096 + x.toNat * 256 + kk.toNat := by
  unfold formatXK
  rw [BitVec.toNat_append, BitVec.toNat_append, ← Nat.shiftLeft_add_eq_or_of_lt kk.isLt,
    ← Nat.shiftLeft_add_eq_or_of_lt x.isLt]
  simp only [Nat.shiftLeft_eq]
  omega

theorem formatXY_toNat (c : Nibble) (x y : RegIdx) (d : Nibble) :
    (formatXY c x y d).toNat = c.toNat * 4096 + x.toNat * 256 + y.toNat * 16 + d.toNat := by
  unfold formatXY
  rw [BitVec.toNat_append, BitVec.toNat_append, BitVec.toNat_append, ← Nat.shiftLeft_add_eq_or_of_lt d.isLt,
    ← Nat.shiftLeft_add_eq_or_of_lt y.isLt, ← Nat.shiftLeft_add_eq_or_of_lt x.isLt]
  simp only [Nat.shiftLeft_eq]
  omega

/-! Fields of format A. -/

@[simp] theorem fieldC_formatA (c : Nibble) (nnn : Addr) : fieldC (formatA c nnn) = c := by
  apply BitVec.eq_of_toNat_eq
  rw [fieldC_toNat, formatA_toNat]
  omega

@[simp] theorem fieldNnn_formatA (c : Nibble) (nnn : Addr) : fieldNnn (formatA c nnn) = nnn := by
  apply BitVec.eq_of_toNat_eq
  rw [fieldNnn_toNat, formatA_toNat]
  omega

/-! Fields of format XK. -/

@[simp] theorem fieldC_formatXK (c : Nibble) (x : RegIdx) (kk : Byte) : fieldC (formatXK c x kk) = c := by
  apply BitVec.eq_of_toNat_eq
  rw [fieldC_toNat, formatXK_toNat]
  omega

@[simp] theorem fieldX_formatXK (c : Nibble) (x : RegIdx) (kk : Byte) : fieldX (formatXK c x kk) = x := by
  apply BitVec.eq_of_toNat_eq
  rw [fieldX_toNat, formatXK_toNat]
  omega

@[simp] theorem fieldKk_formatXK (c : Nibble) (x : RegIdx) (kk : Byte) : fieldKk (formatXK c x kk) = kk := by
  apply BitVec.eq_of_toNat_eq
  rw [fieldKk_toNat, formatXK_toNat]
  omega

/-! Fields of formats XY and XYN. -/

@[simp] theorem fieldC_formatXY (c : Nibble) (x y : RegIdx) (d : Nibble) : fieldC (formatXY c x y d) = c := by
  apply BitVec.eq_of_toNat_eq
  rw [fieldC_toNat, formatXY_toNat]
  omega

@[simp] theorem fieldX_formatXY (c : Nibble) (x y : RegIdx) (d : Nibble) : fieldX (formatXY c x y d) = x := by
  apply BitVec.eq_of_toNat_eq
  rw [fieldX_toNat, formatXY_toNat]
  omega

@[simp] theorem fieldY_formatXY (c : Nibble) (x y : RegIdx) (d : Nibble) : fieldY (formatXY c x y d) = y := by
  apply BitVec.eq_of_toNat_eq
  rw [fieldY_toNat, formatXY_toNat]
  omega

@[simp] theorem fieldN_formatXY (c : Nibble) (x y : RegIdx) (d : Nibble) : fieldN (formatXY c x y d) = d := by
  apply BitVec.eq_of_toNat_eq
  rw [fieldN_toNat, formatXY_toNat]
  omega

end Sys2Proof
end

