-- ==== Sys2Proof/Laws/PerInstr.lean ====
section
/-! SUPPORT. One lemma per instruction, for the host's case split: RowMatch, that the word of every instruction is
accepted by the instruction's own row of the opcode map (spec/30_encoding.md R98), whatever its operands. -/

namespace Sys2Proof

/-- Format A keeps its class under the mask F000. -/
theorem formatA_class (c : Nibble) (nnn : Addr) : formatA c nnn &&& 0xF000#16 = formatA c 0 := by
  apply BitVec.eq_of_getLsbD_eq
  intro k hk
  unfold formatA
  simp only [BitVec.getLsbD_and, BitVec.getLsbD_append]
  interval_cases k <;> simp

/-- Format XK keeps its class under the mask F000. -/
theorem formatXK_class (c : Nibble) (x : RegIdx) (kk : Byte) : formatXK c x kk &&& 0xF000#16 = formatXK c 0 0 := by
  apply BitVec.eq_of_getLsbD_eq
  intro k hk
  unfold formatXK
  simp only [BitVec.getLsbD_and, BitVec.getLsbD_append]
  interval_cases k <;> simp

/-- Format XK keeps its class and low byte under the mask F0FF. -/
theorem formatXK_low (c : Nibble) (x : RegIdx) (kk : Byte) : formatXK c x kk &&& 0xF0FF#16 = formatXK c 0 kk := by
  apply BitVec.eq_of_getLsbD_eq
  intro k hk
  unfold formatXK
  simp only [BitVec.getLsbD_and, BitVec.getLsbD_append]
  interval_cases k <;> simp

/-- Format XY keeps its class and low nibble under the mask F00F. -/
theorem formatXY_low (c : Nibble) (x y : RegIdx) (d : Nibble) : formatXY c x y d &&& 0xF00F#16 = formatXY c 0 0 d := by
  apply BitVec.eq_of_getLsbD_eq
  intro k hk
  unfold formatXY
  simp only [BitVec.getLsbD_and, BitVec.getLsbD_append]
  interval_cases k <;> simp

/-- Format XYN keeps its class under the mask F000. -/
theorem formatXY_class (c : Nibble) (x y : RegIdx) (d : Nibble) : formatXY c x y d &&& 0xF000#16 = formatXY c 0 0 0 := by
  apply BitVec.eq_of_getLsbD_eq
  intro k hk
  unfold formatXY
  simp only [BitVec.getLsbD_and, BitVec.getLsbD_append]
  interval_cases k <;> simp

namespace Laws.RowMatch

/-- The word of the instruction equals its row's match under its row's mask. -/
def Statement (i : Instr) : Prop := encodeWord i &&& i.row.mask = i.row.bits

theorem cls : Statement .cls := rfl
theorem ret : Statement .ret := rfl
theorem jp (nnn : Addr) : Statement (.jp nnn) := formatA_class _ _
theorem call (nnn : Addr) : Statement (.call nnn) := formatA_class _ _
theorem seImm (x : RegIdx) (kk : Byte) : Statement (.seImm x kk) := formatXK_class _ _ _
theorem sneImm (x : RegIdx) (kk : Byte) : Statement (.sneImm x kk) := formatXK_class _ _ _
theorem seReg (x y : RegIdx) : Statement (.seReg x y) := formatXY_low _ _ _ _
theorem ldImm (x : RegIdx) (kk : Byte) : Statement (.ldImm x kk) := formatXK_class _ _ _
theorem addImm (x : RegIdx) (kk : Byte) : Statement (.addImm x kk) := formatXK_class _ _ _
theorem ldReg (x y : RegIdx) : Statement (.ldReg x y) := formatXY_low _ _ _ _
theorem orReg (x y : RegIdx) : Statement (.orReg x y) := formatXY_low _ _ _ _
theorem andReg (x y : RegIdx) : Statement (.andReg x y) := formatXY_low _ _ _ _
theorem xorReg (x y : RegIdx) : Statement (.xorReg x y) := formatXY_low _ _ _ _
theorem addReg (x y : RegIdx) : Statement (.addReg x y) := formatXY_low _ _ _ _
theorem subReg (x y : RegIdx) : Statement (.subReg x y) := formatXY_low _ _ _ _
theorem shrReg (x y : RegIdx) : Statement (.shrReg x y) := formatXY_low _ _ _ _
theorem subnReg (x y : RegIdx) : Statement (.subnReg x y) := formatXY_low _ _ _ _
theorem shlReg (x y : RegIdx) : Statement (.shlReg x y) := formatXY_low _ _ _ _
theorem sneReg (x y : RegIdx) : Statement (.sneReg x y) := formatXY_low _ _ _ _
theorem ldI (nnn : Addr) : Statement (.ldI nnn) := formatA_class _ _
theorem jpV0 (nnn : Addr) : Statement (.jpV0 nnn) := formatA_class _ _
theorem rnd (x : RegIdx) (kk : Byte) : Statement (.rnd x kk) := formatXK_class _ _ _
theorem drw (x y : RegIdx) (n : Nibble) : Statement (.drw x y n) := formatXY_class _ _ _ _
theorem skp (x : RegIdx) : Statement (.skp x) := formatXK_low _ _ _
theorem sknp (x : RegIdx) : Statement (.sknp x) := formatXK_low _ _ _
theorem ldVxDt (x : RegIdx) : Statement (.ldVxDt x) := formatXK_low _ _ _
theorem ldVxK (x : RegIdx) : Statement (.ldVxK x) := formatXK_low _ _ _
theorem ldDtVx (x : RegIdx) : Statement (.ldDtVx x) := formatXK_low _ _ _
theorem ldStVx (x : RegIdx) : Statement (.ldStVx x) := formatXK_low _ _ _
theorem addI (x : RegIdx) : Statement (.addI x) := formatXK_low _ _ _
theorem ldF (x : RegIdx) : Statement (.ldF x) := formatXK_low _ _ _
theorem ldB (x : RegIdx) : Statement (.ldB x) := formatXK_low _ _ _
theorem stRegs (x : RegIdx) : Statement (.stRegs x) := formatXK_low _ _ _
theorem ldRegs (x : RegIdx) : Statement (.ldRegs x) := formatXK_low _ _ _

end Laws.RowMatch

end Sys2Proof
end

