-- ==== Sys2Proof/Laws/Step.lean ====
section
/-! SUPPORT. What one step can do, once: the inversion lemma that proofs about every step start from, and what an
update leaves the same, in the terms of Safety. -/

namespace Sys2Proof.Machine

/-- The fetched bytes decode as their word does. -/
theorem decode_fetchBytes (s : State) : decode (fetchBytes s) = (decodeWord (fetchWord s)).map (fun i => (i, [])) := rfl

/-- A STEP DOES ONE OF THREE THINGS: it re-checks the keypad, it runs the decoded instruction with pc advanced, or it
notifies the host of an unrecognised word with pc advanced. -/
theorem step_cases (s : State) :
    (∃ x, s.wait = some x ∧ step s = recheckKeys x s) ∨
    (∃ i, s.wait = none ∧ decodeWord (fetchWord s) = .ok i ∧ step s = exec i s.advancePc) ∨
    (∃ e, s.wait = none ∧ decodeWord (fetchWord s) = .error e ∧ step s = unrecognised (fetchWord s) s.advancePc) := by
  unfold step
  cases hw : s.wait with
  | some x => exact .inl ⟨x, rfl, rfl⟩
  | none =>
    rw [decode_fetchBytes]
    cases hd : decodeWord (fetchWord s) with
    | ok i => exact .inr (.inl ⟨i, rfl, rfl, rfl⟩)
    | error e => exact .inr (.inr ⟨e, rfl, rfl, rfl⟩)

/-- A re-check answers the state itself when no line is active, and otherwise the lowest line's index in the register
and no wait. -/
theorem recheckKeys_cases (x : RegIdx) (s : State) :
    ((∀ j, j < 16 → s.keyActive j = false) ∧ recheckKeys x s = .next s) ∨
    (∃ k, k < 16 ∧ s.keyActive k = true ∧ (∀ j, j < k → s.keyActive j = false) ∧
      recheckKeys x s = .next ((s.setReg x (BitVec.ofNat 8 k)).setWait none)) := by
  unfold recheckKeys
  cases hk : scanKeys s with
  | none => exact .inl ⟨scanKeys_eq_none.mp hk, rfl⟩
  | some k =>
    obtain ⟨h1, h2, h3⟩ := scanKeys_eq_some.mp hk
    exact .inr ⟨k, h1, h2, h3, rfl⟩

/-- RET by the value of SP. -/
theorem execRet_cases (s : State) :
    (s.sp.toNat = 0 ∧ execRet s = .fault .stackUnderflow) ∨
    (0 < s.sp.toNat ∧ s.sp.toNat ≤ 16 ∧
      execRet s = .next (s.dropTop.setPc (s.stackSlot (s.sp.toNat - 1)).toNat)) ∨
    (16 < s.sp.toNat ∧ execRet s = .refused .stackPointerOutOfRange) := by
  have hd : Config.stackDepth = 16 := rfl
  unfold execRet raise
  split
  · exact .inl ⟨‹_›, rfl⟩
  · split
    · exact .inr (.inr ⟨‹_›, rfl⟩)
    · exact .inr (.inl ⟨by omega, by omega, rfl⟩)

/-- CALL by the value of SP. -/
theorem execCall_cases (nnn : Addr) (s : State) :
    (s.sp.toNat = 16 ∧ execCall nnn s = .fault .stackOverflow) ∨
    (s.sp.toNat < 16 ∧ execCall nnn s = .next ((s.push s.pc).setPc nnn.toNat)) ∨
    (16 < s.sp.toNat ∧ execCall nnn s = .refused .stackPointerOutOfRange) := by
  have hd : Config.stackDepth = 16 := rfl
  unfold execCall raise
  split
  · exact .inl ⟨‹_›, rfl⟩
  · split
    · exact .inr (.inr ⟨‹_›, rfl⟩)
    · exact .inr (.inl ⟨by omega, rfl⟩)

/-- LD Vx, K by the key lines. -/
theorem execLdVxK_cases (x : RegIdx) (s : State) :
    ((∀ j, j < 16 → s.keyActive j = false) ∧ execLdVxK x s = .next (s.setWait (some x))) ∨
    (∃ k, k < 16 ∧ s.keyActive k = true ∧ (∀ j, j < k → s.keyActive j = false) ∧
      execLdVxK x s = .next (s.setReg x (BitVec.ofNat 8 k))) := by
  unfold execLdVxK
  cases hk : scanKeys s with
  | none => exact .inl ⟨scanKeys_eq_none.mp hk, rfl⟩
  | some k =>
    obtain ⟨h1, h2, h3⟩ := scanKeys_eq_some.mp hk
    exact .inr ⟨k, h1, h2, h3, rfl⟩

/-- To show that only the listed pieces change, show it piece by piece. -/
theorem onlyChanges_of {ps : List Part} {s t : State}
    (regs : Part.regs ∉ ps → ∀ r, t.reg r = s.reg r) (index : Part.index ∉ ps → t.i = s.i)
    (pc : Part.pc ∉ ps → t.pc = s.pc) (sp : Part.sp ∉ ps → t.sp = s.sp)
    (stack : Part.stack ∉ ps → ∀ k, k < 16 → t.stackSlot k = s.stackSlot k)
    (dt : Part.dt ∉ ps → t.dt = s.dt) (st : Part.st ∉ ps → t.st = s.st) (keys : Part.keys ∉ ps → t.keys = s.keys)
    (disp : Part.disp ∉ ps → t.disp = s.disp) (mem : Part.mem ∉ ps → ∀ a, t.memRead a = s.memRead a)
    (wait : Part.wait ∉ ps → t.wait = s.wait) (quirks : Part.quirks ∉ ps → t.quirks = s.quirks)
    (draws : Part.draws ∉ ps → t.draws = s.draws) (diags : Part.diags ∉ ps → t.diags = s.diags) :
    OnlyChanges ps s t := by
  intro p hp
  cases p <;> simp only [Part.Same] <;> solve_by_elim

/-- Frames compose. -/
theorem OnlyChanges.trans {ps : List Part} {s t u : State} (h₁ : OnlyChanges ps s t) (h₂ : OnlyChanges ps t u) :
    OnlyChanges ps s u := by
  intro p hp
  have a := h₁ p hp
  have b := h₂ p hp
  cases p <;> simp only [Part.Same] at a b ⊢ <;> first
    | exact b.trans a
    | exact fun r => (b r).trans (a r)
    | exact fun k hk => (b k hk).trans (a k hk)

/-- Nothing changes from a state to itself. -/
theorem OnlyChanges.refl (ps : List Part) (s : State) : OnlyChanges ps s s := by
  intro p _
  cases p <;> simp [Part.Same]

/-- A longer list of pieces promises less. -/
theorem OnlyChanges.mono {ps qs : List Part} (hsub : ∀ p ∈ ps, p ∈ qs) {s t : State} (h : OnlyChanges ps s t) :
    OnlyChanges qs s t :=
  fun p hp => h p (fun hin => hp (hsub p hin))

end Sys2Proof.Machine
end

