-- ==== Sys2Proof/Laws/Run.lean ====
section
/-! SUPPORT. What a run does with its next event, and when the suggested end of a run holds. -/

namespace Sys2Proof.Machine

/-- A run whose END_OF_RUN holds has ended, whatever events are left. -/
theorem runEvents_ended {endOfRun : EndOfRun} {s : State} (h : endOfRun s = true) (es : List Event) :
    runEvents endOfRun es s = .ended s := by
  cases es <;> simp [runEvents, h]

/-- With no event left a run that has not ended has stopped. -/
theorem runEvents_nil {endOfRun : EndOfRun} {s : State} (h : endOfRun s = false) :
    runEvents endOfRun [] s = .stopped s := by
  simp [runEvents, h]

/-- A run that has not ended goes on after an event that answers a next state. -/
theorem runEvents_next {endOfRun : EndOfRun} {s t : State} {e : Event} (h : endOfRun s = false) (ht : act e s = .next t)
    (es : List Event) : runEvents endOfRun (e :: es) s = runEvents endOfRun es t := by
  simp [runEvents, h, ht]

/-- The suggested end holds exactly when the machine awaits no key and pc addresses a jump to itself. -/
theorem selfJump_iff {s : State} :
    selfJump s = true ↔ s.wait = none ∧ ∃ nnn, decodeWord (fetchWord s) = .ok (.jp nnn) ∧ nnn.toNat = s.pc.toNat := by
  unfold selfJump
  cases hw : s.wait with
  | some x => simp
  | none =>
    cases hd : decodeWord (fetchWord s) with
    | error e => simp
    | ok i => cases i <;> simp

end Sys2Proof.Machine
end

