-- ==== Sys2Proof/Tests/Slice0.lean ====
section
/-! SUPPORT. Tests. Words are written out from spec/30_encoding.md R98 and spec/95_test_vectors.md; expected results are
those vectors (T-…). After them, one witness or more for the hypotheses of every obligation that has any. -/

namespace Sys2Proof.Tests

open Sys2Proof Sys2Proof.Machine

/-! ## Well-formedness: one ill-formed word for each check of R103, refused by the check and by the decoder -/

theorem test_wf_class0 : wordWellFormed 0x0000 = false ∧ wordWellFormed 0x01E0 = false ∧ wordWellFormed 0x0123 = false := by
  decide
theorem test_wf_class5 : wordWellFormed 0x5121 = false := by decide
theorem test_wf_class8 : wordWellFormed 0x8128 = false ∧ wordWellFormed 0x812F = false := by decide
theorem test_wf_class9 : wordWellFormed 0x9ABF = false := by decide
theorem test_wf_classE : wordWellFormed 0xE19F = false ∧ wordWellFormed 0xE1AE = false := by decide
theorem test_wf_classF : wordWellFormed 0xF166 = false ∧ wordWellFormed 0xF100 = false ∧ wordWellFormed 0xFFFF = false := by
  decide
theorem test_wf_accepts : wordWellFormed 0xD12A = true ∧ wordWellFormed 0x8AB4 = true ∧ wordWellFormed 0xBFFF = true := by
  decide

theorem test_reject_class0 : decodeWord 0x0000 = .error (.class0 0x0000) ∧ decodeWord 0x01E0 = .error (.class0 0x01E0) :=
  ⟨rfl, rfl⟩
theorem test_reject_class5 : decodeWord 0x5121 = .error (.class5 0x5121) := rfl
theorem test_reject_class8 : decodeWord 0x8128 = .error (.class8 0x8128) ∧ decodeWord 0x812F = .error (.class8 0x812F) :=
  ⟨rfl, rfl⟩
theorem test_reject_class9 : decodeWord 0x9ABF = .error (.class9 0x9ABF) := rfl
theorem test_reject_classE : decodeWord 0xE19F = .error (.classE 0xE19F) ∧ decodeWord 0xE1AE = .error (.classE 0xE1AE) :=
  ⟨rfl, rfl⟩
theorem test_reject_classF : decodeWord 0xF1FF = .error (.classF 0xF1FF) ∧ decodeWord 0xF100 = .error (.classF 0xF100) :=
  ⟨rfl, rfl⟩
theorem test_reject_truncated : decode [] = .error .truncated ∧ decode [0x60] = .error .truncated := ⟨rfl, rfl⟩

/-! ## Decoding: every constructor by a word of R98 written out -/

theorem test_decode_flow :
    decodeTableWord 16 0x00EE = some .ret ∧ decodeTableWord 16 0x120C = some (.jp 0x20C) ∧
    decodeTableWord 16 0x220A = some (.call 0x20A) ∧ decodeTableWord 16 0xBFFF = some (.jpV0 0xFFF) := by decide

theorem test_decode_skip :
    decodeTableWord 16 0x3F01 = some (.seImm 0xF 0x01) ∧ decodeTableWord 16 0x4211 = some (.sneImm 2 0x11) ∧
    decodeTableWord 16 0x5340 = some (.seReg 3 4) ∧ decodeTableWord 16 0x9AB0 = some (.sneReg 0xA 0xB) := by decide

theorem test_decode_immediate :
    decodeTableWord 16 0x6A2B = some (.ldImm 0xA 0x2B) ∧ decodeTableWord 16 0x71FF = some (.addImm 1 0xFF) := by decide

theorem test_decode_alu :
    decodeTableWord 16 0x8120 = some (.ldReg 1 2) ∧ decodeTableWord 16 0x8121 = some (.orReg 1 2) ∧
    decodeTableWord 16 0x8122 = some (.andReg 1 2) ∧ decodeTableWord 16 0x8123 = some (.xorReg 1 2) ∧
    decodeTableWord 16 0x8AB4 = some (.addReg 0xA 0xB) ∧ decodeTableWord 16 0x8015 = some (.subReg 0 1) ∧
    decodeTableWord 16 0x8F16 = some (.shrReg 0xF 1) ∧ decodeTableWord 16 0x8127 = some (.subnReg 1 2) ∧
    decodeTableWord 16 0x812E = some (.shlReg 1 2) := by decide

theorem test_decode_index :
    decodeTableWord 16 0xA204 = some (.ldI 0x204) ∧ decodeTableWord 16 0xF31E = some (.addI 3) ∧
    decodeTableWord 16 0xFA29 = some (.ldF 0xA) := by decide

theorem test_decode_random_display :
    decodeTableWord 16 0xC10F = some (.rnd 1 0x0F) ∧ decodeTableWord 16 0x00E0 = some .cls ∧
    decodeTableWord 16 0xD12A = some (.drw 1 2 0xA) := by decide

theorem test_decode_keypad_timers :
    decodeTableWord 16 0xE19E = some (.skp 1) ∧ decodeTableWord 16 0xE1A1 = some (.sknp 1) ∧
    decodeTableWord 16 0xF20A = some (.ldVxK 2) ∧ decodeTableWord 16 0xF007 = some (.ldVxDt 0) ∧
    decodeTableWord 16 0xF015 = some (.ldDtVx 0) ∧ decodeTableWord 16 0xF418 = some (.ldStVx 4) := by decide

theorem test_decode_memio :
    decodeTableWord 16 0xF033 = some (.ldB 0) ∧ decodeTableWord 16 0xF155 = some (.stRegs 1) ∧
    decodeTableWord 16 0xFF65 = some (.ldRegs 0xF) := by decide

theorem test_encode :
    encode (.drw 1 2 0xA) = [0xD1, 0x2A] ∧ encode (.addReg 0xA 0xB) = [0x8A, 0xB4] ∧ encode (.jp 0x20C) = [0x12, 0x0C] ∧
    encode (.ldRegs 0xF) = [0xFF, 0x65] ∧ encode .cls = [0x00, 0xE0] := by decide

/-! ## One step on a small state -/

/-- The outcome is a next state that passes the check. -/
def next (o : Result) (check : State → Bool) : Bool :=
  match o with
  | .next t => check t
  | .fault _ => false
  | .refused _ => false

/-- The outcome is this fault. -/
def faults (o : Result) (f : Fault) : Bool :=
  match o with
  | .next _ => false
  | .fault g => f == g
  | .refused _ => false

/-- The reset state with some registers set. -/
def withRegs (l : List (RegIdx × Byte)) : State := l.foldl (fun s p => s.setReg p.1 p.2) State.reset

/-- The state with the word at pc, run for one step. -/
def run (w : Nat) (s : State) : Result := step (s.withFetchWord 16 w)

/-- The state with the configuration (SHIFT_SRC_Y, SPRITE_WRAP, MEMIO_INC_I). -/
def quirky (a b c : Bool) (s : State) : State := { s with quirks := ⟨a, b, c⟩ }

-- T-E30: after reset with nothing loaded, a step runs the word 0x0000.
theorem test_step_reset : next (step State.reset) (fun t => t.pc == 0x202 && t.diags == [0x0000]) = true := by decide
-- T-E32: no skip, one notification.
theorem test_step_unrecognised :
    next (run 0x5121 (withRegs [(1, 7), (2, 7)])) (fun t => t.pc == 0x202 && t.diags == [0x5121] && t.reg 1 == 7) = true := by
  decide
-- T-M1: fetched across the end of memory.
theorem test_step_fetch_wraps :
    next (run 0x6A2B (State.reset.setPc 0xFFF)) (fun t => t.pc == 0x001 && t.reg 10 == 0x2B) = true := by decide
-- T-F3
theorem test_ret : next (run 0x00EE (({ State.reset with pc := 0x20A }).push 0x206)) (fun t =>
    t.pc == 0x206 && t.sp == 0 && t.stackSlot 0 == 0x206) = true := by decide
-- T-F6
theorem test_ret_underflow : faults (run 0x00EE State.reset) .stackUnderflow = true := by decide
-- T-F13
theorem test_jp : next (run 0x1201 State.reset) (fun t => t.pc == 0x201 && t.sp == 0) = true := by decide
-- T-F10: the pushed value is pc after the fetch.
theorem test_call : next (run 0x2300 { State.reset with pc := 0x400, sp := 15 }) (fun t =>
    t.pc == 0x300 && t.sp == 16 && t.stackSlot 15 == 0x402) = true := by decide
-- T-F11
theorem test_call_overflow : faults (run 0x2300 { State.reset with sp := 16 }) .stackOverflow = true := by decide
-- T-F8
theorem test_jpV0 : next (run 0xBFFF (withRegs [(0, 0xFF)])) (fun t => t.pc == 0x0FE) = true := by decide
-- T-F14: the offset is V0, not Vx.
theorem test_jpV0_not_vx : next (run 0xB2FF (withRegs [(1, 0x55), (2, 0x66)])) (fun t => t.pc == 0x2FF) = true := by decide
-- T-K11
theorem test_seImm : next (run 0x3000 (State.reset.setPc 0xFFE)) (fun t => t.pc == 0x002) = true := by decide
-- T-K2
theorem test_seImm_not_taken : next (run 0x3100 (withRegs [(1, 4)])) (fun t => t.pc == 0x202) = true := by decide
-- T-K3
theorem test_sneImm : next (run 0x4211 (withRegs [(2, 0x10)])) (fun t => t.pc == 0x204) = true := by decide
-- T-K4
theorem test_sneImm_not_taken : next (run 0x4210 (withRegs [(2, 0x10)])) (fun t => t.pc == 0x202) = true := by decide
-- T-K5
theorem test_seReg : next (run 0x5340 (withRegs [(3, 7), (4, 7)])) (fun t => t.pc == 0x204) = true := by decide
-- T-K6
theorem test_seReg_not_taken : next (run 0x5340 (withRegs [(3, 7), (4, 8)])) (fun t => t.pc == 0x202) = true := by decide
-- T-K7
theorem test_sneReg : next (run 0x9340 (withRegs [(3, 7), (4, 8)])) (fun t => t.pc == 0x204) = true := by decide
-- T-K10
theorem test_sneReg_same : next (run 0x9330 (withRegs [(3, 0x99)])) (fun t => t.pc == 0x202) = true := by decide
-- T-L2
theorem test_ldImm : next (run 0x6FFF State.reset) (fun t => t.reg 15 == 0xFF && t.pc == 0x202) = true := by decide
-- T-L7: no carry recorded.
theorem test_addImm : next (run 0x7101 (withRegs [(1, 0xFF), (15, 1)])) (fun t => t.reg 1 == 0 && t.reg 15 == 1) = true := by
  decide
-- T-L6
theorem test_addImm_flag_register : next (run 0x7F01 (withRegs [(15, 0xFF)])) (fun t => t.reg 15 == 0) = true := by decide
-- T-A1
theorem test_ldReg : next (run 0x8120 (withRegs [(2, 0x5A), (15, 1)])) (fun t => t.reg 1 == 0x5A && t.reg 15 == 1) = true := by
  decide
-- T-A3
theorem test_orReg : next (run 0x8121 (withRegs [(1, 0xF0), (2, 0x0F), (15, 1)])) (fun t =>
    t.reg 1 == 0xFF && t.reg 15 == 0) = true := by decide
-- T-A8: the old flag is an operand.
theorem test_orReg_flag_operand : next (run 0x81F1 (withRegs [(1, 0x10), (15, 1)])) (fun t =>
    t.reg 1 == 0x11 && t.reg 15 == 0) = true := by decide
-- T-A4
theorem test_andReg : next (run 0x8122 (withRegs [(1, 0xFC), (2, 0x3F), (15, 1)])) (fun t =>
    t.reg 1 == 0x3C && t.reg 15 == 0) = true := by decide
-- T-A5
theorem test_xorReg : next (run 0x8123 (withRegs [(1, 0xFF), (2, 0x0F), (15, 1)])) (fun t =>
    t.reg 1 == 0xF0 && t.reg 15 == 0) = true := by decide
-- T-A10: the sum 255 has no carry.
theorem test_addReg : next (run 0x8014 (withRegs [(0, 0xFE), (1, 1), (15, 1)])) (fun t =>
    t.reg 0 == 0xFF && t.reg 15 == 0) = true := by decide
-- T-A13: x = 15, the carry remains.
theorem test_addReg_flag_register : next (run 0x8F14 (withRegs [(15, 0xFF), (1, 2)])) (fun t => t.reg 15 == 1) = true := by
  decide
-- T-A14
theorem test_subReg : next (run 0x8015 (withRegs [(0, 1), (1, 2), (15, 1)])) (fun t =>
    t.reg 0 == 0xFF && t.reg 15 == 0) = true := by decide
-- T-A15
theorem test_subReg_equal : next (run 0x8015 (withRegs [(0, 5), (1, 5)])) (fun t => t.reg 0 == 0 && t.reg 15 == 1) = true := by
  decide
-- T-A23, T-A24
theorem test_shrReg_x : next (run 0x8016 (quirky false false true (withRegs [(0, 5), (1, 0x82)]))) (fun t =>
    t.reg 0 == 2 && t.reg 15 == 1) = true := by decide
theorem test_shrReg_y : next (run 0x8016 (quirky true false true (withRegs [(0, 5), (1, 0x82), (15, 1)]))) (fun t =>
    t.reg 0 == 0x41 && t.reg 15 == 0 && t.reg 1 == 0x82) = true := by decide
-- T-A20
theorem test_subnReg : next (run 0x8127 (withRegs [(1, 2), (2, 1), (15, 1)])) (fun t =>
    t.reg 1 == 0xFF && t.reg 15 == 0) = true := by decide
-- T-A21
theorem test_subnReg_no_borrow : next (run 0x8127 (withRegs [(1, 1), (2, 3)])) (fun t =>
    t.reg 1 == 2 && t.reg 15 == 1) = true := by decide
-- T-A25, T-A26
theorem test_shlReg_x : next (run 0x801E (quirky false false true (withRegs [(0, 5), (1, 0x82), (15, 1)]))) (fun t =>
    t.reg 0 == 0x0A && t.reg 15 == 0) = true := by decide
theorem test_shlReg_y : next (run 0x801E (quirky true false true (withRegs [(0, 5), (1, 0x82)]))) (fun t =>
    t.reg 0 == 4 && t.reg 15 == 1) = true := by decide
-- T-I2
theorem test_ldI : next (run 0xAFFF State.reset) (fun t => t.i == 0xFFF) = true := by decide
-- T-I4
theorem test_addI : next (run 0xF31E ((withRegs [(3, 0x20)]).setI 0xFF0)) (fun t => t.i == 0x010 && t.reg 15 == 0) = true := by
  decide
-- T-I7, T-I8: no mask.
theorem test_ldF : next (run 0xFA29 (withRegs [(10, 0x0A)])) (fun t => t.i == 0x032) = true := by decide
theorem test_ldF_no_mask : next (run 0xF129 (withRegs [(1, 0xFF)])) (fun t => t.i == 0x4FB) = true := by decide
-- T-R1, T-R2: with the source answering 0xA7, the part of RND that does not depend on what is drawn.
theorem test_rnd : (rndWith 0xA7 1 0x0F State.reset).reg 1 = 0x07 ∧ (rndWith 0xA7 1 0xF0 State.reset).reg 1 = 0xA0 := by decide
-- T-R3: one byte drawn, whatever it is.
theorem test_rnd_counts : next (run 0xC100 State.reset) (fun t => t.draws == 1 && t.pc == 0x202) = true := by decide
-- T-D1, in part: a set pixel is cleared.
theorem test_cls : next (run 0x00E0 (State.reset.setDisp (Display.toggle Display.clear 2047))) (fun t =>
    t.disp == Display.clear) = true := by decide

/-- The sprite of T-D2 and T-D3, its origin at the last pixel but one. -/
def cornerSprite : State :=
  ((withRegs [(0, 62), (1, 31)]).setI 0x20E).storeBytes 0x20E [0xC3, 0x81]

/-- The display whose pixels are those listed, each once. -/
def lit (ps : List Nat) : Display := ps.foldl Display.toggle Display.clear

-- T-D2: clipped.
theorem test_drw_clip : next (run 0xD012 (quirky true false true cornerSprite)) (fun t =>
    t.disp == lit [62 + 31 * 64, 63 + 31 * 64] && t.reg 15 == 0) = true := by
  decide
-- T-D3: wrapped.
theorem test_drw_wrap : next (run 0xD012 (quirky true true true cornerSprite)) (fun t =>
    t.disp == lit [5, 62, 4 + 31 * 64, 5 + 31 * 64, 62 + 31 * 64, 63 + 31 * 64] && t.reg 15 == 0) = true := by decide
-- T-P5: the index is V[x] mod 16.
theorem test_skp : next (run 0xE29E { withRegs [(2, 0x17)] with keys := 0x0080 }) (fun t => t.pc == 0x204) = true := by decide
-- T-P6
theorem test_skp_not_taken : next (run 0xE29E { withRegs [(2, 7)] with keys := 0x0140 }) (fun t => t.pc == 0x202) = true := by
  decide
-- T-P3
theorem test_sknp : next (run 0xE2A1 (withRegs [(2, 7)])) (fun t => t.pc == 0x204) = true := by decide
-- T-P4
theorem test_sknp_not_taken : next (run 0xE2A1 { withRegs [(2, 7)] with keys := 0x0080 }) (fun t => t.pc == 0x202) = true := by
  decide
-- T-P11
theorem test_ldVxK : next (run 0xF20A { State.reset with keys := 0x0810 }) (fun t =>
    t.reg 2 == 4 && t.wait == none && t.pc == 0x202) = true := by decide
-- T-P7
theorem test_ldVxK_waits : next (run 0xF20A State.reset) (fun t => t.wait == some 2 && t.pc == 0x202) = true := by decide
-- T-P14: nothing is fetched while waiting.
theorem test_wait_goes_on : next (step { State.reset.withFetchWord 16 0x1300 with wait := some 2 }) (fun t =>
    t.pc == 0x200 && t.wait == some 2) = true := by decide
-- T-P9
theorem test_wait_ends : next (step { State.reset with wait := some 2, keys := 0x0080 }) (fun t =>
    t.pc == 0x200 && t.wait == none && t.reg 2 == 7) = true := by decide
-- T-T6
theorem test_ldVxDt : next (run 0xF107 { withRegs [(1, 9)] with dt := 0, st := 7 }) (fun t => t.reg 1 == 0) = true := by decide
-- T-T2
theorem test_ldDtVx : next (run 0xF015 (withRegs [(0, 3)])) (fun t => t.dt == 3 && t.st == 0) = true := by decide
-- T-T3
theorem test_ldStVx : next (run 0xF418 (withRegs [(4, 0x1E)])) (fun t => t.st == 30 && t.dt == 0) = true := by decide
-- T-X1
theorem test_ldB : next (run 0xF033 ((withRegs [(0, 0xFE)]).setI 0x300)) (fun t =>
    [t.memRead 0x300, t.memRead 0x301, t.memRead 0x302] == [2, 5, 4] && t.i == 0x300) = true := by decide
-- T-X7: past the end of memory.
theorem test_ldB_wraps : next (run 0xF033 ((withRegs [(0, 0x7B)]).setI 0xFFE)) (fun t =>
    [t.memRead 0xFFE, t.memRead 0xFFF, t.memRead 0] == [1, 2, 3] && t.mem.wf) = true := by decide
-- T-X8, T-X9
theorem test_stRegs : next (run 0xF155 (quirky true false true ((withRegs [(0, 2), (1, 0x82)]).setI 0x300))) (fun t =>
    [t.memRead 0x300, t.memRead 0x301, t.memRead 0x302] == [2, 0x82, 0] && t.i == 0x302) = true := by decide
theorem test_stRegs_keeps_i : next (run 0xF155 (quirky true false false ((withRegs [(0, 2), (1, 0x82)]).setI 0x300))) (fun t =>
    [t.memRead 0x300, t.memRead 0x301] == [2, 0x82] && t.i == 0x300) = true := by decide
-- T-X12
theorem test_ldRegs : next (run 0xF265 (((withRegs [(3, 0x77)]).setI 0x300).storeBytes 0x300 [2, 5, 4, 9])) (fun t =>
    [t.reg 0, t.reg 1, t.reg 2, t.reg 3] == [2, 5, 4, 0x77] && t.i == 0x303) = true := by decide
-- T-X16: reads 0xFFF and the font byte at 0.
theorem test_ldRegs_wraps : next (run 0xF165 (quirky true false false (State.reset.setI 0xFFF))) (fun t =>
    [t.reg 0, t.reg 1] == [0, 0xF0] && t.i == 0xFFF) = true := by decide

/-! ## The host's operations -/

-- T-T7, T-T8
theorem test_tick : next (act .tick { State.reset with dt := 3, st := 1 }) (fun t => t.dt == 2 && t.st == 0) = true ∧
    next (act .tick State.reset) (fun t => t.dt == 0 && t.st == 0) = true := by decide
-- T-S5
theorem test_load : next (act (.load [0x12, 0x00]) (withRegs [(3, 0x77)])) (fun t =>
    t.reg 3 == 0 && t.pc == 0x200 && next (step t) (fun u => u.pc == 0x200)) = true := by decide
-- R107, D23: `LD V0, 0x0A` and then a jump to itself; the run ends at the first state whose pc addresses the jump.
theorem test_run_ends :
    (match runEvents selfJump [.load [0x60, 0x0A, 0x12, 0x02], .step, .step, .tick] State.reset with
      | .ended t => t.pc == 0x202 && t.reg 0 == 0x0A
      | .faulted _ _ | .stopped _ | .refused _ _ => false) = true := by decide
-- R262, R236: RET with an empty stack ends the run, nothing committed.
theorem test_run_faults :
    runEvents neverEnds [.step, .tick] (State.reset.withFetchWord 16 0x00EE) =
      .faulted .stackUnderflow (State.reset.withFetchWord 16 0x00EE) := by decide
-- T-S6
theorem test_font : [0, 4, 5, 9, 50, 51, 52, 53, 54, 75, 76, 77, 78, 79, 80].map State.reset.memRead =
    [0xF0, 0xF0, 0x20, 0x70, 0xF0, 0x90, 0xF0, 0x90, 0x90, 0xF0, 0x80, 0xF0, 0x80, 0x80, 0x00] := by decide

/-! ## Witnesses: states and operands that meet the hypotheses of the obligations, at the ends of their ranges -/

theorem reset_machineInv : MachineInv State.reset := ⟨by decide, by decide, by decide, by decide, by decide⟩

/-- A full stack, in every other piece the reset state. -/
def fullStack : State := { State.reset with sp := 16, stack := Vector.replicate 16 0x123 }

theorem fullStack_machineInv : MachineInv fullStack := ⟨by decide, by decide, by decide, by decide, by decide⟩

theorem test_witness_EncodeInvertsDecode : decodeWord 0x8AB4 = .ok (.addReg 0xA 0xB) ∧ decodeWord 0xFF65 = .ok (.ldRegs 15) :=
  ⟨rfl, rfl⟩
theorem test_witness_DecodeAcceptsExactlyTheOpcodeMap : decodeWord 0x00E0 = .ok .cls ∧ (⟨0xFFFF, 0x00E0⟩ : OpcodeRow) ∈ opcodeMap :=
  ⟨rfl, by decide⟩
theorem test_witness_UnrecognisedWordsByClass :
    (0x1000#16).toNat / 4096 ∉ [0, 5, 8, 9, 14, 15] ∧ (0xDFFF#16).toNat / 4096 ∉ [0, 5, 8, 9, 14, 15] := by decide
theorem test_witness_StepRunsDecodedInstruction :
    (State.reset.withFetchWord 16 0x600A).wait = none ∧
    decodeWord ((State.reset.withFetchWord 16 0x600A).memRead 0x200 ++ (State.reset.withFetchWord 16 0x600A).memRead 0x201) =
      .ok (.ldImm 0 0x0A) := ⟨rfl, rfl⟩
theorem test_witness_UnrecognisedWordIsNoOp :
    State.reset.wait = none ∧
    decodeWord (State.reset.memRead State.reset.pc.toNat ++ State.reset.memRead (State.reset.pc.toNat + 1)) =
      .error (.class0 0x0000) := ⟨rfl, rfl⟩
theorem test_witness_UnrecognisedWordIsNoOp_last_address :
    decodeWord ((State.reset.setPc 0xFFF).memRead 0xFFF ++ (State.reset.setPc 0xFFF).memRead (0xFFF + 1)) =
      .error (.class0 0x00F0) := rfl

/-- Awaiting a key for register 2, with the lines of `k` active. -/
def awaiting (k : BitVec 16) : State := { State.reset with wait := some 2, keys := k }

theorem test_witness_AwaitingKey_none : (awaiting 0).wait = some 2 ∧ ∀ k, k < 16 → (awaiting 0).keyActive k = false :=
  ⟨rfl, by decide⟩
theorem test_witness_AwaitingKey_first : (awaiting 0xFFFF).keyActive 0 = true := by decide
theorem test_witness_AwaitingKey_last :
    (awaiting 0x8000).keyActive 15 = true ∧ ∀ j, j < 15 → (awaiting 0x8000).keyActive j = false := by decide
theorem test_witness_FaultsRaisedExactly :
    State.reset.sp.toNat = 0 ∧ faults (exec .ret State.reset) .stackUnderflow = true ∧
    fullStack.sp.toNat = 16 ∧ faults (exec (.call 0xFFF) fullStack) .stackOverflow = true := by decide
theorem test_witness_StepAnswersNextOrStackFault :
    State.reset.sp.toNat ≤ 16 ∧ fullStack.sp.toNat ≤ 16 ∧ next (step State.reset) (fun _ => true) = true ∧
    faults (run 0x2300 fullStack) .stackOverflow = true := by decide
theorem test_witness_StoredWordIsFetched :
    (State.reset.setPc 0xFFF).mem.wf = true ∧ (State.reset.setPc 0xFFF).wait = none ∧
    decodeWord 0x6A2B = .ok (.ldImm 0xA 0x2B) := ⟨rfl, rfl, rfl⟩
theorem test_witness_StepKeepsInvariant : MachineInv State.reset ∧ ∃ t, step State.reset = .next t :=
  ⟨reset_machineInv, _, rfl⟩
theorem test_witness_HostOperationsKeepInvariant :
    MachineInv fullStack ∧ (∃ t, act .reset fullStack = .next t) ∧ (∃ t, act (.load []) fullStack = .next t) ∧
    (∃ t, act .tick fullStack = .next t) ∧ ∃ t, act (.setKeys 0xFFFF) fullStack = .next t :=
  ⟨fullStack_machineInv, ⟨_, rfl⟩, ⟨_, rfl⟩, ⟨_, rfl⟩, _, rfl⟩
theorem test_witness_ReachableStatesMeetInvariant : Reachable State.reset := Reachable.reset defaultQuirks 0 []
theorem test_witness_NoStepChangesKeysNoEventChangesQuirks :
    (∃ t, step State.reset = .next t) ∧ ∃ t, act .tick State.reset = .next t := ⟨⟨_, rfl⟩, _, rfl⟩

-- A jump is none of the instructions that the next five statements except; ADD V1, V2 writes V1 and V15 only.
theorem test_witness_written_only : ∃ t, exec (.jp 0x20C) State.reset = .next t := ⟨_, rfl⟩
theorem test_witness_RegistersWrittenOnlyAsListed :
    (∃ t, exec (.addReg 1 2) State.reset = .next t) ∧ writesReg (.addReg 1 2) 3 = false ∧
    (∃ t, exec (.ldRegs 14) State.reset = .next t) ∧ writesReg (.ldRegs 14) 15 = false := ⟨⟨_, rfl⟩, rfl, ⟨_, rfl⟩, rfl⟩
theorem test_witness_IndexAndStackWrittenOnlyAsListed :
    (quirky true false false State.reset).quirks.memioIncI = false ∧
    ∃ t, exec (.stRegs 3) (quirky true false false State.reset) = .next t := ⟨rfl, _, rfl⟩
theorem test_witness_PcRedirectedOnlyAsListed :
    (∃ t, exec (.ldImm 0 1) State.reset = .next t) ∧ ∃ t, exec (.seImm 0 0) State.reset = .next t := ⟨⟨_, rfl⟩, _, rfl⟩
theorem test_witness_RetPopsReturnAddress :
    State.reset.sp.toNat = 0 ∧ MachineInv fullStack ∧ 0 < fullStack.sp.toNat :=
  ⟨rfl, fullStack_machineInv, by decide⟩
theorem test_witness_RetPopsReturnAddress_one :
    MachineInv { State.reset with sp := 1 } ∧ 0 < ({ State.reset with sp := 1 } : State).sp.toNat :=
  ⟨⟨by decide, by decide, by decide, by decide, by decide⟩, by decide⟩
theorem test_witness_CallPushesReturnAddress :
    fullStack.sp.toNat = 16 ∧ State.reset.sp.toNat < 16 ∧ ({ State.reset with sp := 15 } : State).sp.toNat < 16 ∧
    ∃ k, k < 16 ∧ k ≠ ({ State.reset with sp := 15 } : State).sp.toNat := ⟨rfl, by decide, by decide, 14, by decide⟩

/-- E3: `CALL 0x20A` at 0x204 and `RET` at 0x20A. -/
def callThenReturn : State := ((State.reset.setPc 0x204).storeBytes 0x204 [0x22, 0x0A]).storeBytes 0x20A [0x00, 0xEE]

theorem test_witness_CallThenReturnRestores :
    MachineInv callThenReturn ∧ callThenReturn.wait = none ∧ callThenReturn.sp.toNat < 16 ∧
    decodeWord (callThenReturn.memRead 0x204 ++ callThenReturn.memRead 0x205) = .ok (.call 0x20A) ∧
    decodeWord (callThenReturn.memRead 0x20A ++ callThenReturn.memRead 0x20B) = .ok .ret :=
  ⟨⟨by decide, by decide, by decide, by decide, by decide⟩, rfl, by decide, rfl, rfl⟩
theorem test_witness_SkipOnRegisters : (1 : Nibble) ≠ 0 ∧ (15 : Nibble) ≠ 0 := by decide
-- The clause x ≠ 15 of the class-8 statements, at both ends.
theorem test_witness_class8 : (0 : RegIdx) ≠ 15 ∧ (14 : RegIdx) ≠ 15 := by decide
theorem test_witness_ShiftByQuirk :
    (quirky true false true State.reset).quirks.shiftSrcY = true ∧
    (quirky false false true State.reset).quirks.shiftSrcY = false := by decide
theorem test_witness_RndDrawsOneByte : ∃ t, exec (.ldImm 0 1) State.reset = .next t := ⟨_, rfl⟩
theorem test_witness_DrawingTwiceRestores :
    (0 : RegIdx) ≠ 15 ∧ (14 : RegIdx) ≠ 15 ∧ (∀ p, p < 2048 → Display.pixel cornerSprite.disp p = false) ∧
    PlacedMask cornerSprite 62 31 2 (62 + 31 * 64) :=
  ⟨by decide, by decide, fun p _ => Display.pixel_clear p, 0, 0, by decide, by decide, by decide, by decide, by decide, rfl⟩
theorem test_witness_LdVxKTakesKeyOrWaits :
    (∀ k, k < 16 → State.reset.keys.getLsbD k = false) ∧
    (0x8000#16).getLsbD 15 = true ∧ (∀ j, j < 15 → (0x8000#16).getLsbD j = false) ∧ (0xFFFF#16).getLsbD 0 = true := by decide
-- MemWriteSetsOneByte, LdBStoresDigits, StRegsStoresRange: memory empty, and with entries at both ends.
theorem test_witness_mem_wf :
    State.reset.mem.wf = true ∧ ((State.reset.storeBytes 0 [1]).storeBytes 4095 [1]).mem.wf = true := by decide
theorem test_witness_StoreThenLoadRestoresRegisters :
    ∃ t u : State, State.reset.mem.wf = true ∧ exec (.stRegs 15) State.reset = .next t ∧ u.i = State.reset.i ∧
      ∀ k, k ≤ 15 → u.memRead (State.reset.i.toNat + k) = t.memRead (State.reset.i.toNat + k) :=
  ⟨_, (State.reset.storeBytes State.reset.i.toNat ((regRange 15).map State.reset.reg)), by decide, rfl,
    by decide, fun _ _ => rfl⟩
theorem test_witness_LoadInstallsImageOrFails :
    3584 < (List.replicate 3585 (0 : Byte)).length ∧ (List.replicate 3584 (0 : Byte)).length ≤ 3584 ∧
    ([] : List Byte).length ≤ 3584 := by
  rw [List.length_replicate, List.length_replicate]; decide
theorem test_witness_RunEndsOnlyByEndFaultOrHost :
    MachineInv State.reset ∧ runEvents neverEnds [] State.reset = .stopped State.reset ∧
    runEvents (fun _ => true) [.step] State.reset = .ended State.reset :=
  ⟨reset_machineInv, by decide, by decide⟩
theorem test_witness_RunEndsOnlyByEndFaultOrHost_fault :
    MachineInv fullStack ∧ faults (run 0x2300 fullStack) .stackOverflow = true := ⟨fullStack_machineInv, by decide⟩
theorem test_witness_SuggestedEndIsFixedPoint :
    selfJump (State.reset.withFetchWord 16 0x1200) = true ∧
    selfJump ((State.reset.setPc 0xFFF).withFetchWord 16 0x1FFF) = true := by decide

end Sys2Proof.Tests
end

section
/-! SUPPORT. What each update, each instruction and each step can change at all, once, as a frame: the statements on
what is left unchanged follow from these tables by membership. -/

namespace Sys2Proof.Machine

/-! Frames of the updates. -/

/-- Two changes one after the other change no more than what either changes. -/
theorem OnlyChanges.append {ps qs : List Part} {s t u : State} (h₁ : OnlyChanges ps s t) (h₂ : OnlyChanges qs t u) :
    OnlyChanges (ps ++ qs) s u :=
  (h₁.mono fun _ => List.mem_append_left qs).trans (h₂.mono fun _ => List.mem_append_right ps)

section
variable (s : State)

theorem State.setReg_onlyChanges (x : RegIdx) (b : Byte) : OnlyChanges [.regs] s (s.setReg x b) := by
  intro p hp; cases p <;> simp [Part.Same] at hp ⊢

theorem State.setResultThenFlag_onlyChanges (x : RegIdx) (a f : Byte) :
    OnlyChanges [.regs] s (s.setResultThenFlag x a f) := by
  intro p hp; cases p <;> simp [Part.Same] at hp ⊢

theorem State.setFlag_onlyChanges (b : Byte) : OnlyChanges [.regs] s (s.setFlag b) :=
  s.setReg_onlyChanges _ b

theorem loadRegsFrom_onlyChanges (ks : List RegIdx) : OnlyChanges [.regs] s (loadRegsFrom s ks) := by
  intro p hp; cases p <;> simp [Part.Same] at hp ⊢

theorem State.setI_onlyChanges (a : Nat) : OnlyChanges [.index] s (s.setI a) := by
  intro p hp; cases p <;> simp [Part.Same] at hp ⊢

theorem State.bumpI_onlyChanges (x : RegIdx) : OnlyChanges [.index] s (s.bumpI x) := by
  intro p hp; cases p <;> simp [Part.Same] at hp ⊢

theorem State.setPc_onlyChanges (a : Nat) : OnlyChanges [.pc] s (s.setPc a) := by
  intro p hp; cases p <;> simp [Part.Same] at hp ⊢

theorem State.advancePc_onlyChanges : OnlyChanges [.pc] s s.advancePc := by
  intro p hp; cases p <;> simp [Part.Same] at hp ⊢

theorem State.skipIf_onlyChanges (c : Bool) : OnlyChanges [.pc] s (s.skipIf c) := by
  intro p hp; cases p <;> simp [Part.Same] at hp ⊢

theorem State.push_onlyChanges (w : Word) : OnlyChanges [.sp, .stack] s (s.push w) := by
  intro p hp; cases p <;> simp [Part.Same] at hp ⊢

theorem State.dropTop_onlyChanges : OnlyChanges [.sp] s s.dropTop := by
  intro p hp; cases p <;> simp [Part.Same] at hp ⊢

theorem State.setDt_onlyChanges (b : Byte) : OnlyChanges [.dt] s (s.setDt b) := by
  intro p hp; cases p <;> simp [Part.Same] at hp ⊢

theorem State.setSt_onlyChanges (b : Byte) : OnlyChanges [.st] s (s.setSt b) := by
  intro p hp; cases p <;> simp [Part.Same] at hp ⊢

theorem State.setDisp_onlyChanges (d : Display) : OnlyChanges [.disp] s (s.setDisp d) := by
  intro p hp; cases p <;> simp [Part.Same] at hp ⊢

theorem State.storeBytes_onlyChanges (a : Nat) (bs : List Byte) : OnlyChanges [.mem] s (s.storeBytes a bs) := by
  intro p hp; cases p <;> simp [Part.Same] at hp ⊢

theorem State.setWait_onlyChanges (w : Option RegIdx) : OnlyChanges [.wait] s (s.setWait w) := by
  intro p hp; cases p <;> simp [Part.Same] at hp ⊢

theorem State.countDraw_onlyChanges : OnlyChanges [.draws] s s.countDraw := by
  intro p hp; cases p <;> simp [Part.Same] at hp ⊢

theorem State.notifyHost_onlyChanges (w : Word) : OnlyChanges [.diags] s (s.notifyHost w) := by
  intro p hp; cases p <;> simp [Part.Same] at hp ⊢

end

/-! Frame of every instruction. -/

/-- The pieces an instruction may change, pc only where it redirects it (the fetch has advanced it already). I is listed
for the block transfers whatever MEMIO_INC_I is. -/
def changedParts : Instr → List Part
  | .cls => [.disp]
  | .ret => [.sp, .pc]
  | .call _ => [.sp, .stack, .pc]
  | .jp _ | .jpV0 _ | .seImm _ _ | .sneImm _ _ | .seReg _ _ | .sneReg _ _ | .skp _ | .sknp _ => [.pc]
  | .ldImm _ _ | .addImm _ _ | .ldReg _ _ | .orReg _ _ | .andReg _ _ | .xorReg _ _ | .addReg _ _ | .subReg _ _
  | .shrReg _ _ | .subnReg _ _ | .shlReg _ _ | .ldVxDt _ => [.regs]
  | .ldI _ | .addI _ | .ldF _ => [.index]
  | .rnd _ _ => [.draws, .regs]
  | .drw _ _ _ => [.disp, .regs]
  | .ldVxK _ => [.regs, .wait]
  | .ldDtVx _ => [.dt]
  | .ldStVx _ => [.st]
  | .ldB _ => [.mem]
  | .stRegs _ => [.mem, .index]
  | .ldRegs _ => [.regs, .index]

theorem execRet_onlyChanges {s t : State} (h : execRet s = .next t) : OnlyChanges (changedParts .ret) s t := by
  obtain ⟨_, e⟩ | ⟨_, _, e⟩ | ⟨_, e⟩ := execRet_cases s <;> rw [e] at h <;> cases h
  exact s.dropTop_onlyChanges.append (State.setPc_onlyChanges _ _)

theorem execCall_onlyChanges {nnn : Addr} {s t : State} (h : execCall nnn s = .next t) :
    OnlyChanges (changedParts (.call nnn)) s t := by
  obtain ⟨_, e⟩ | ⟨_, e⟩ | ⟨_, e⟩ := execCall_cases nnn s <;> rw [e] at h <;> cases h
  exact (s.push_onlyChanges _).append (State.setPc_onlyChanges _ _)

theorem execLdVxK_onlyChanges {x : RegIdx} {s t : State} (h : execLdVxK x s = .next t) :
    OnlyChanges (changedParts (.ldVxK x)) s t := by
  obtain ⟨_, e⟩ | ⟨k, _, _, _, e⟩ := execLdVxK_cases x s <;> rw [e] at h <;> cases h
  · exact (s.setWait_onlyChanges _).mono (by simp [changedParts])
  · exact (s.setReg_onlyChanges _ _).mono (by simp [changedParts])

/-- AN INSTRUCTION CHANGES NOTHING BUT ITS LISTED PIECES. -/
theorem exec_onlyChanges {i : Instr} {s t : State} (h : exec i s = .next t) : OnlyChanges (changedParts i) s t := by
  cases i with
  | ret => exact execRet_onlyChanges h
  | call nnn => exact execCall_onlyChanges h
  | ldVxK x => exact execLdVxK_onlyChanges h
  | cls => cases h; exact s.setDisp_onlyChanges _
  | jp nnn => cases h; exact s.setPc_onlyChanges _
  | jpV0 nnn => cases h; exact s.setPc_onlyChanges _
  | seImm x kk => cases h; exact s.skipIf_onlyChanges _
  | sneImm x kk => cases h; exact s.skipIf_onlyChanges _
  | seReg x y => cases h; exact s.skipIf_onlyChanges _
  | sneReg x y => cases h; exact s.skipIf_onlyChanges _
  | skp x => cases h; exact s.skipIf_onlyChanges _
  | sknp x => cases h; exact s.skipIf_onlyChanges _
  | ldImm x kk => cases h; exact s.setReg_onlyChanges _ _
  | addImm x kk => cases h; exact s.setReg_onlyChanges _ _
  | ldReg x y => cases h; exact s.setReg_onlyChanges _ _
  | ldVxDt x => cases h; exact s.setReg_onlyChanges _ _
  | orReg x y => cases h; exact s.setResultThenFlag_onlyChanges _ _ _
  | andReg x y => cases h; exact s.setResultThenFlag_onlyChanges _ _ _
  | xorReg x y => cases h; exact s.setResultThenFlag_onlyChanges _ _ _
  | addReg x y => cases h; exact s.setResultThenFlag_onlyChanges _ _ _
  | subReg x y => cases h; exact s.setResultThenFlag_onlyChanges _ _ _
  | shrReg x y => cases h; exact s.setResultThenFlag_onlyChanges _ _ _
  | subnReg x y => cases h; exact s.setResultThenFlag_onlyChanges _ _ _
  | shlReg x y => cases h; exact s.setResultThenFlag_onlyChanges _ _ _
  | ldI nnn => cases h; exact s.setI_onlyChanges _
  | addI x => cases h; exact s.setI_onlyChanges _
  | ldF x => cases h; exact s.setI_onlyChanges _
  | rnd x kk => cases h; exact s.countDraw_onlyChanges.append (State.setReg_onlyChanges _ _ _)
  | drw x y n => cases h; exact (s.setDisp_onlyChanges _).append (State.setFlag_onlyChanges _ _)
  | ldDtVx x => cases h; exact s.setDt_onlyChanges _
  | ldStVx x => cases h; exact s.setSt_onlyChanges _
  | ldB x => cases h; exact s.storeBytes_onlyChanges _ _
  | stRegs x => cases h; exact (s.storeBytes_onlyChanges _ _).append (State.bumpI_onlyChanges _ _)
  | ldRegs x => cases h; exact (loadRegsFrom_onlyChanges s _).append (State.bumpI_onlyChanges _ _)

/-! Frame of a step. -/

/-- The pieces that are a step's to change: all but the key lines and the quirks. -/
def stepParts : List Part := [.regs, .index, .pc, .sp, .stack, .dt, .st, .disp, .mem, .wait, .draws, .diags]

theorem changedParts_subset_stepParts (i : Instr) : ∀ p ∈ changedParts i, p ∈ stepParts := by
  cases i <;> simp [changedParts, stepParts]

theorem recheckKeys_onlyChanges {x : RegIdx} {s t : State} (h : recheckKeys x s = .next t) :
    OnlyChanges [.regs, .wait] s t := by
  obtain ⟨_, e⟩ | ⟨k, _, _, _, e⟩ := recheckKeys_cases x s <;> rw [e] at h <;> cases h
  · exact OnlyChanges.refl _ s
  · exact (s.setReg_onlyChanges x _).append (State.setWait_onlyChanges _ none)

theorem unrecognised_onlyChanges {w : Word} {s t : State} (h : unrecognised w s = .next t) :
    OnlyChanges [.diags] s t := by
  cases h; exact s.notifyHost_onlyChanges w

/-- A STEP CHANGES NEITHER A KEY LINE NOR A QUIRK, whichever of its three things it does. -/
theorem step_onlyChanges {s t : State} (h : step s = .next t) : OnlyChanges stepParts s t := by
  have hpc : OnlyChanges stepParts s s.advancePc := s.advancePc_onlyChanges.mono (by decide)
  obtain ⟨x, _, e⟩ | ⟨i, _, _, e⟩ | ⟨_, _, _, e⟩ := step_cases s <;> rw [e] at h
  · exact (recheckKeys_onlyChanges h).mono (by decide)
  · exact hpc.trans ((exec_onlyChanges h).mono (changedParts_subset_stepParts i))
  · exact hpc.trans ((unrecognised_onlyChanges h).mono (by decide))

theorem step_keys {s t : State} (h : step s = .next t) : t.keys = s.keys := step_onlyChanges h .keys (by decide)

theorem step_quirks {s t : State} (h : step s = .next t) : t.quirks = s.quirks := step_onlyChanges h .quirks (by decide)

/-! The host's operations. -/

/-- Load by the length of the image. -/
theorem hostLoad_cases (image : List Byte) (s : State) :
    (3584 < image.length ∧ hostLoad image s = .fault .imageTooLarge) ∨
    (image.length ≤ 3584 ∧ hostLoad image s = .next ((resetState s).storeBytes entry image)) := by
  have hm : maxImage = 3584 := rfl
  unfold hostLoad raise
  split
  · exact .inl ⟨by omega, rfl⟩
  · exact .inr ⟨by omega, rfl⟩

/-- Reset sets every piece of the spec's state, but not the quirks, which it takes over (R6, R270). -/
@[simp] theorem resetState_quirks (s : State) : (resetState s).quirks = s.quirks := rfl

/-- NO EVENT CHANGES A QUIRK. -/
theorem act_quirks {e : Event} {s t : State} (h : act e s = .next t) : t.quirks = s.quirks := by
  cases e with
  | step => exact step_quirks h
  | reset => cases h; exact resetState_quirks s
  | load image =>
    obtain ⟨_, hload⟩ | ⟨_, hload⟩ := hostLoad_cases image s <;> cases hload.symm.trans h
    rw [State.storeBytes_quirks, resetState_quirks]
  | tick => cases h; rw [State.setSt_quirks, State.setDt_quirks]
  | setKeys k => cases h; rfl

/-- Settles O16: the key lines and the quirks are no piece a step may change, and the host's operations other than a
step either set other pieces or take the quirks over. -/
theorem noStepChangesKeysNoEventChangesQuirks : Obligations.NoStepChangesKeysNoEventChangesQuirks :=
  ⟨fun _ _ => step_keys, fun _ _ _ => act_quirks⟩

end Sys2Proof.Machine
end

section
/-! SUPPORT. The invariants of spec/10_state.md R35: every update keeps them, so every instruction, every step and every
operation of the host does, and every state of a run meets them. -/

namespace Sys2Proof.Machine

/-- The invariants speak of I, pc, SP, the stack and the memory list only. -/
theorem MachineInv.of_fields_eq {s t : State} (h : MachineInv s) (hi : t.i = s.i) (hpc : t.pc = s.pc)
    (hsp : t.sp = s.sp) (hstack : t.stack = s.stack) (hmem : t.mem = s.mem) : MachineInv t where
  i_lt := hi ▸ h.i_lt
  pc_lt := hpc ▸ h.pc_lt
  sp_le := hsp ▸ h.sp_le
  stack_lt k hk := by
    have hslot : t.stackSlot k = s.stackSlot k := by rw [State.stackSlot, State.stackSlot, hstack]
    exact hslot ▸ h.stack_lt k hk
  mem_wf := hmem ▸ h.mem_wf

/-! Updates of pieces the invariants do not speak of. -/

section
variable {s : State} (h : MachineInv s)
include h

theorem MachineInv.setReg (x : RegIdx) (b : Byte) : MachineInv (s.setReg x b) := h.of_fields_eq rfl rfl rfl rfl rfl

theorem MachineInv.setFlag (b : Byte) : MachineInv (s.setFlag b) := h.setReg 15 b

theorem MachineInv.setResultThenFlag (x : RegIdx) (a f : Byte) : MachineInv (s.setResultThenFlag x a f) :=
  (h.setReg x a).setFlag f

theorem MachineInv.setDt (b : Byte) : MachineInv (s.setDt b) := h.of_fields_eq rfl rfl rfl rfl rfl

theorem MachineInv.setSt (b : Byte) : MachineInv (s.setSt b) := h.of_fields_eq rfl rfl rfl rfl rfl

theorem MachineInv.setDisp (d : Display) : MachineInv (s.setDisp d) := h.of_fields_eq rfl rfl rfl rfl rfl

theorem MachineInv.setWait (w : Option RegIdx) : MachineInv (s.setWait w) := h.of_fields_eq rfl rfl rfl rfl rfl

theorem MachineInv.countDraw : MachineInv s.countDraw := h.of_fields_eq rfl rfl rfl rfl rfl

theorem MachineInv.notifyHost (w : Word) : MachineInv (s.notifyHost w) := h.of_fields_eq rfl rfl rfl rfl rfl

theorem MachineInv.loadRegsFrom (ks : List RegIdx) : MachineInv (loadRegsFrom s ks) :=
  h.of_fields_eq (loadRegsFrom_i s ks) (loadRegsFrom_pc s ks) (loadRegsFrom_sp s ks) (loadRegsFrom_stack s ks)
    (loadRegsFrom_mem s ks)

/-! Updates of I and pc: reduced modulo 4096, whatever the value. -/

theorem MachineInv.setI (a : Nat) : MachineInv (s.setI a) :=
  { h with i_lt := (s.setI_toNat a).symm ▸ Nat.mod_lt a (by decide) }

theorem MachineInv.bumpI (x : RegIdx) : MachineInv (s.bumpI x) := by
  unfold State.bumpI
  split
  · exact h.setI _
  · exact h

theorem MachineInv.setPc (a : Nat) : MachineInv (s.setPc a) :=
  { h with pc_lt := (s.setPc_toNat a).symm ▸ Nat.mod_lt a (by decide) }

theorem MachineInv.advancePc : MachineInv s.advancePc := h.setPc _

theorem MachineInv.skipIf (c : Bool) : MachineInv (s.skipIf c) := by
  cases c
  · exact h
  · exact h.advancePc

/-! Updates of the stack, from a state in which the slot exists. -/

theorem MachineInv.push {w : Word} (hsp : s.sp.toNat < 16) (hw : w.toNat < 4096) : MachineInv (s.push w) :=
  { h with
    sp_le := by rw [s.push_sp_toNat w hsp]; omega
    stack_lt := fun k hk => by
      rw [s.stackSlot_push w k hk]
      split
      · exact hw
      · exact h.stack_lt k hk }

theorem MachineInv.dropTop (hsp : 0 < s.sp.toNat) : MachineInv s.dropTop :=
  { h with sp_le := by have := h.sp_le; rw [s.dropTop_sp_toNat hsp]; omega }

/-! Updates of memory. -/

theorem MachineInv.storeBytes (a : Nat) (bs : List Byte) : MachineInv (s.storeBytes a bs) where
  i_lt := (s.storeBytes_i a bs).symm ▸ h.i_lt
  pc_lt := (s.storeBytes_pc a bs).symm ▸ h.pc_lt
  sp_le := (s.storeBytes_sp a bs).symm ▸ h.sp_le
  stack_lt k hk := (s.storeBytes_stackSlot a bs k).symm ▸ h.stack_lt k hk
  mem_wf := State.storeBytes_wf bs h.mem_wf a

end

/-! Instructions. CALL and RET keep SP in 0..16 because they fault at the ends of the stack. -/

theorem execRet_machineInv {s t : State} (h : MachineInv s) (ht : execRet s = .next t) : MachineInv t := by
  obtain ⟨_, e⟩ | ⟨hpos, _, e⟩ | ⟨_, e⟩ := execRet_cases s <;> rw [e] at ht <;> cases ht
  exact (h.dropTop hpos).setPc _

theorem execCall_machineInv {nnn : Addr} {s t : State} (h : MachineInv s) (ht : execCall nnn s = .next t) :
    MachineInv t := by
  obtain ⟨_, e⟩ | ⟨hlt, e⟩ | ⟨_, e⟩ := execCall_cases nnn s <;> rw [e] at ht <;> cases ht
  exact (h.push hlt h.pc_lt).setPc _

theorem execLdVxK_machineInv {x : RegIdx} {s t : State} (h : MachineInv s) (ht : execLdVxK x s = .next t) :
    MachineInv t := by
  obtain ⟨_, e⟩ | ⟨k, _, _, _, e⟩ := execLdVxK_cases x s <;> rw [e] at ht <;> cases ht
  · exact h.setWait _
  · exact h.setReg _ _

/-- EVERY INSTRUCTION KEEPS THE INVARIANTS. -/
theorem exec_machineInv {i : Instr} {s t : State} (h : MachineInv s) (ht : exec i s = .next t) : MachineInv t := by
  cases i with
  | ret => exact execRet_machineInv h ht
  | call nnn => exact execCall_machineInv h ht
  | ldVxK x => exact execLdVxK_machineInv h ht
  | cls => cases ht; exact h.setDisp _
  | jp nnn | jpV0 nnn => cases ht; exact h.setPc _
  | seImm x kk | sneImm x kk => cases ht; exact h.skipIf _
  | seReg x y | sneReg x y => cases ht; exact h.skipIf _
  | skp x | sknp x => cases ht; exact h.skipIf _
  | ldImm x kk | addImm x kk => cases ht; exact h.setReg _ _
  | ldReg x y => cases ht; exact h.setReg _ _
  | ldVxDt x => cases ht; exact h.setReg _ _
  | orReg x y | andReg x y | xorReg x y | addReg x y | subReg x y | shrReg x y | subnReg x y | shlReg x y =>
    cases ht; exact h.setResultThenFlag _ _ _
  | ldI nnn => cases ht; exact h.setI _
  | addI x | ldF x => cases ht; exact h.setI _
  | rnd x kk => cases ht; exact h.countDraw.setReg _ _
  | drw x y n => cases ht; exact (h.setDisp _).setFlag _
  | ldDtVx x => cases ht; exact h.setDt _
  | ldStVx x => cases ht; exact h.setSt _
  | ldB x => cases ht; exact h.storeBytes _ _
  | stRegs x => cases ht; exact (h.storeBytes _ _).bumpI _
  | ldRegs x => cases ht; exact (h.loadRegsFrom _).bumpI _

/-! Steps. -/

theorem recheckKeys_machineInv {x : RegIdx} {s t : State} (h : MachineInv s) (ht : recheckKeys x s = .next t) :
    MachineInv t := by
  obtain ⟨_, e⟩ | ⟨k, _, _, _, e⟩ := recheckKeys_cases x s <;> rw [e] at ht <;> cases ht
  · exact h
  · exact (h.setReg _ _).setWait _

/-- EVERY STEP KEEPS THE INVARIANTS, whichever of its three things it does. -/
theorem step_machineInv {s t : State} (h : MachineInv s) (ht : step s = .next t) : MachineInv t := by
  obtain ⟨x, _, e⟩ | ⟨i, _, _, e⟩ | ⟨_, _, _, e⟩ := step_cases s <;> rw [e] at ht
  · exact recheckKeys_machineInv h ht
  · exact exec_machineInv h.advancePc ht
  · cases ht; exact h.advancePc.notifyHost _

/-! The host's operations, and runs. -/

/-- The reset values are in range and the list of memory is empty; the model's own three pieces do not matter. -/
theorem reset_machineInv (q : Quirks) (n : Nat) (ds : List Word) :
    MachineInv { State.reset with quirks := q, draws := n, diags := ds } := by
  have h : MachineInv State.reset := ⟨by decide, by decide, by decide, by decide, reset_mem_wf⟩
  exact h.of_fields_eq rfl rfl rfl rfl rfl

theorem resetState_machineInv (s : State) : MachineInv (resetState s) := reset_machineInv s.quirks s.draws s.diags

/-- EVERY EVENT KEEPS THE INVARIANTS. -/
theorem act_machineInv {e : Event} {s t : State} (h : MachineInv s) (ht : act e s = .next t) : MachineInv t := by
  cases e with
  | step => exact step_machineInv h ht
  | reset => cases ht; exact resetState_machineInv s
  | load image =>
    obtain ⟨_, hload⟩ | ⟨_, hload⟩ := hostLoad_cases image s <;> cases hload.symm.trans ht
    exact (resetState_machineInv s).storeBytes entry image
  | tick => cases ht; exact (h.setDt _).setSt _
  | setKeys k => cases ht; exact h.of_fields_eq rfl rfl rfl rfl rfl

/-- A run starts right after a reset, and every event of it keeps the invariants. -/
theorem Reachable.machineInv {s : State} (hs : Reachable s) : MachineInv s := by
  induction hs with
  | reset q n ds => exact reset_machineInv q n ds
  | event e _ ht ih => exact act_machineInv ih ht

/-- Settles O12: a step re-checks the keypad, runs an instruction or notifies the host, and each is made of updates that
keep the invariants; CALL and RET move SP only where it stays in 0..16. -/
theorem stepKeepsInvariant : Obligations.StepKeepsInvariant := fun _ _ => step_machineInv

/-- Settles O13: the reset values are in range, whatever the quirks and the host's channels. -/
theorem resetMeetsInvariant : Obligations.ResetMeetsInvariant := reset_machineInv

/-- Settles O14: each of the host's operations resets, stores an image after a reset, or sets pieces that the invariants
do not speak of. -/
theorem hostOperationsKeepInvariant : Obligations.HostOperationsKeepInvariant := fun _ _ _ _ => act_machineInv

/-- Settles O15: by induction on the run, from O13 and what every event keeps. -/
theorem reachableStatesMeetInvariant : Obligations.ReachableStatesMeetInvariant := fun _ hs => hs.machineInv

end Sys2Proof.Machine
end

section
/-! SUPPORT. Which instructions write which piece, read off the table of `changedParts`; and, where the table is coarser
than the spec's lists (the registers one by one, I by MEMIO_INC_I), what the listed writers leave. -/

namespace Sys2Proof.Machine

/-! The writers of one piece. -/

section
variable (i : Instr)

theorem dt_mem_changedParts : .dt ∈ changedParts i ↔ ∃ x, i = .ldDtVx x := by
  cases i <;> simp [changedParts]

theorem st_mem_changedParts : .st ∈ changedParts i ↔ ∃ x, i = .ldStVx x := by
  cases i <;> simp [changedParts]

theorem disp_mem_changedParts : .disp ∈ changedParts i ↔ i = .cls ∨ ∃ x y n, i = .drw x y n := by
  cases i <;> simp [changedParts]

theorem index_mem_changedParts : .index ∈ changedParts i ↔
    (∃ nnn, i = .ldI nnn) ∨ (∃ x, i = .addI x) ∨ (∃ x, i = .ldF x) ∨ (∃ x, i = .stRegs x) ∨ ∃ x, i = .ldRegs x := by
  cases i <;> simp [changedParts]

theorem sp_mem_changedParts : .sp ∈ changedParts i ↔ i = .ret ∨ ∃ nnn, i = .call nnn := by
  cases i <;> simp [changedParts]

theorem stack_mem_changedParts : .stack ∈ changedParts i ↔ ∃ nnn, i = .call nnn := by
  cases i <;> simp [changedParts]

end

/-- Settles O17: each timer is a changed piece of its own load alone. -/
theorem timersWrittenOnlyByTheirLoads : Obligations.TimersWrittenOnlyByTheirLoads := by
  intro i s t h
  refine ⟨fun hne => exec_onlyChanges h .dt ?_, fun hne => exec_onlyChanges h .st ?_⟩
  · rw [dt_mem_changedParts]; exact not_exists.mpr hne
  · rw [st_mem_changedParts]; exact not_exists.mpr hne

/-- Settles O19: the display is a changed piece of CLS and DRW alone. -/
theorem displayWrittenOnlyByClearAndDraw : Obligations.DisplayWrittenOnlyByClearAndDraw := by
  intro i s t h hcls hdrw
  refine exec_onlyChanges h .disp ?_
  rw [disp_mem_changedParts]
  rintro (hi | ⟨x, y, n, hi⟩)
  · exact hcls hi
  · exact hdrw x y n hi

/-! The registers one by one. -/

/-- A class 8 writer leaves every register but its destination and the flag register. -/
theorem State.reg_setResultThenFlag_ne (s : State) {x r : RegIdx} (a f : Byte) (h : (r == x || r == 15) = false) :
    (s.setResultThenFlag x a f).reg r = s.reg r := by
  obtain ⟨hx, hflag⟩ := Bool.or_eq_false_iff.mp h
  rw [State.reg_setResultThenFlag, if_neg (ne_of_beq_false hflag), if_neg (ne_of_beq_false hx)]

/-- A block load leaves every register above x. -/
theorem loadRegsFrom_regRange_reg (s : State) {x r : RegIdx} (h : ¬ r.toNat ≤ x.toNat) :
    (loadRegsFrom s (regRange x)).reg r = s.reg r := by
  rw [loadRegsFrom_reg, if_neg (mt mem_regRange.mp h)]

theorem execLdVxK_reg {x r : RegIdx} {s t : State} (h : execLdVxK x s = .next t) (hr : r ≠ x) : t.reg r = s.reg r := by
  obtain ⟨_, e⟩ | ⟨k, _, _, _, e⟩ := execLdVxK_cases x s <;> rw [e] at h <;> cases h
  · rfl
  · exact s.reg_setReg_ne _ hr

/-- AN INSTRUCTION LEAVES EVERY REGISTER THAT IT IS NOT LISTED AS WRITING: the writers by their operation, every other
instruction because the registers are no changed piece of it. -/
theorem exec_reg {i : Instr} {s t : State} {r : RegIdx} (h : exec i s = .next t) (hw : writesReg i r = false) :
    t.reg r = s.reg r := by
  cases i with
  | ldImm x kk | addImm x kk => cases h; exact s.reg_setReg_ne _ (ne_of_beq_false hw)
  | ldReg x y => cases h; exact s.reg_setReg_ne _ (ne_of_beq_false hw)
  | ldVxDt x => cases h; exact s.reg_setReg_ne _ (ne_of_beq_false hw)
  | orReg x y | andReg x y | xorReg x y | addReg x y | subReg x y | shrReg x y | subnReg x y | shlReg x y =>
    cases h; exact s.reg_setResultThenFlag_ne _ _ hw
  | rnd x kk => cases h; exact s.countDraw.reg_setReg_ne _ (ne_of_beq_false hw)
  | drw x y n => cases h; exact State.reg_setReg_ne _ _ (ne_of_beq_false hw)
  | ldVxK x => exact execLdVxK_reg h (ne_of_beq_false hw)
  | ldRegs x =>
    cases h
    rw [State.bumpI_reg]
    exact loadRegsFrom_regRange_reg s (of_decide_eq_false hw)
  | _ => exact exec_onlyChanges h .regs (by simp [changedParts]) r

/-- Settles O20: by cases on the instruction. -/
theorem registersWrittenOnlyAsListed : Obligations.RegistersWrittenOnlyAsListed := fun _ _ _ _ => exec_reg

/-! I by MEMIO_INC_I. -/

/-- Without MEMIO_INC_I a block transfer does not move I. -/
theorem State.bumpI_eq_self {s : State} (h : s.quirks.memioIncI = false) (x : RegIdx) : s.bumpI x = s := by
  simp [State.bumpI, h]

theorem execStRegs_i {x : RegIdx} {s t : State} (hq : s.quirks.memioIncI = false) (h : execStRegs x s = .next t) :
    t.i = s.i := by
  cases h
  rw [State.bumpI_eq_self (by rw [State.storeBytes_quirks, hq]), State.storeBytes_i]

theorem execLdRegs_i {x : RegIdx} {s t : State} (hq : s.quirks.memioIncI = false) (h : execLdRegs x s = .next t) :
    t.i = s.i := by
  cases h
  rw [State.bumpI_eq_self (by rw [loadRegsFrom_quirks, hq]), loadRegsFrom_i]

/-- AN INSTRUCTION THAT IS NO LISTED WRITER OF I LEAVES I, the block transfers listed under MEMIO_INC_I only. -/
theorem exec_i {i : Instr} {s t : State} (h : exec i s = .next t) (hldI : ∀ nnn, i ≠ .ldI nnn)
    (haddI : ∀ x, i ≠ .addI x) (hldF : ∀ x, i ≠ .ldF x)
    (hblock : s.quirks.memioIncI = true → (∀ x, i ≠ .stRegs x) ∧ ∀ x, i ≠ .ldRegs x) : t.i = s.i := by
  by_cases hi : .index ∈ changedParts i
  · obtain ⟨nnn, rfl⟩ | ⟨x, rfl⟩ | ⟨x, rfl⟩ | ⟨x, rfl⟩ | ⟨x, rfl⟩ := (index_mem_changedParts i).mp hi
    · exact absurd rfl (hldI nnn)
    · exact absurd rfl (haddI x)
    · exact absurd rfl (hldF x)
    · exact execStRegs_i (Bool.eq_false_iff.mpr fun hq => (hblock hq).1 x rfl) h
    · exact execLdRegs_i (Bool.eq_false_iff.mpr fun hq => (hblock hq).2 x rfl) h
  · exact exec_onlyChanges h .index hi

/-- Settles O21: I by its writers and MEMIO_INC_I, SP and the stack because they are changed pieces of the listed
instructions alone. -/
theorem indexAndStackWrittenOnlyAsListed : Obligations.IndexAndStackWrittenOnlyAsListed := by
  intro i s t h
  refine ⟨exec_i h, fun hcall hret => exec_onlyChanges h .sp ?_, fun hcall => exec_onlyChanges h .stack ?_⟩
  · rw [sp_mem_changedParts]
    rintro (hi | ⟨nnn, hi⟩)
    · exact hret hi
    · exact hcall nnn hi
  · rw [stack_mem_changedParts]; exact not_exists.mpr hcall

end Sys2Proof.Machine
end

section
/-! SUPPORT. Memory (spec/20_memory.md): the frame of one write, the instructions that write memory, and a word stored at
pc, which the next fetch reads back. -/

namespace Sys2Proof.Machine

/-! One write. -/

/-- A write is a run of one byte. -/
theorem State.memWrite_onlyChanges (s : State) (a : Nat) (b : Byte) : OnlyChanges [.mem] s (s.memWrite a b) :=
  s.storeBytes_onlyChanges a [b]

/-- Settles O49: read after write on a canonical memory, and the frame of a write. -/
theorem memWriteSetsOneByte : Obligations.MemWriteSetsOneByte :=
  fun s a b hwf => ⟨State.memRead_memWrite hwf a b, s.memWrite_onlyChanges a b⟩

/-! The instructions that write memory. -/

theorem mem_mem_changedParts (i : Instr) : .mem ∈ changedParts i ↔ (∃ x, i = .ldB x) ∨ ∃ x, i = .stRegs x := by
  cases i <;> simp [changedParts]

/-- Settles O18: memory is a changed piece of LD B, Vx and LD [I], Vx alone. -/
theorem memoryWrittenOnlyByStores : Obligations.MemoryWrittenOnlyByStores := by
  intro i s t h hldB hstRegs
  refine exec_onlyChanges h .mem ?_
  rw [mem_mem_changedParts]
  rintro (⟨x, hi⟩ | ⟨x, hi⟩)
  · exact hldB x hi
  · exact hstRegs x hi

/-! A stored word. -/

/-- A word stored at pc, wherever pc is, is the word fetched: its two bytes fall on different addresses modulo 4096. -/
theorem fetchWord_storeBytes_bytesOfWord {s : State} (hwf : s.mem.wf = true) (w : Word) :
    fetchWord (s.storeBytes s.pc.toNat (bytesOfWord w)) = w := by
  have hlen : (bytesOfWord w).length ≤ 4096 := by simp [bytesOfWord]
  have hhi : (s.storeBytes s.pc.toNat (bytesOfWord w)).memRead s.pc.toNat = hiByte w :=
    State.memRead_storeBytes (bytesOfWord w) hwf _ 0 Nat.two_pos hlen
  have hlo : (s.storeBytes s.pc.toNat (bytesOfWord w)).memRead (s.pc.toNat + 1) = loByte w :=
    State.memRead_storeBytes (bytesOfWord w) hwf _ 1 Nat.one_lt_two hlen
  rw [fetchWord, State.storeBytes_pc, hhi, hlo, wordOfBytes_bytes]

/-- Not awaiting a key, a step whose fetched word decodes runs that instruction with pc advanced. -/
theorem step_eq_exec {s : State} {i : Instr} (hwait : s.wait = none) (hdec : decodeWord (fetchWord s) = .ok i) :
    step s = exec i s.advancePc := by
  obtain ⟨x, hx, _⟩ | ⟨j, _, hj, hstep⟩ | ⟨e, _, he, _⟩ := step_cases s
  · cases hwait.symm.trans hx
  · cases hdec.symm.trans hj; exact hstep
  · cases hdec.symm.trans he

/-- Settles O11: the step after the store fetches the stored word, and the store has moved neither pc nor the wait. -/
theorem storedWordIsFetched : Obligations.StoredWordIsFetched := by
  intro s w i hwf hwait hdec
  change step (s.storeBytes s.pc.toNat (bytesOfWord w)) =
    exec i ((s.storeBytes s.pc.toNat (bytesOfWord w)).setPc (s.pc.toNat + 2))
  have hfetch : decodeWord (fetchWord (s.storeBytes s.pc.toNat (bytesOfWord w))) = .ok i := by
    rw [fetchWord_storeBytes_bytesOfWord hwf, hdec]
  rw [step_eq_exec (by rw [State.storeBytes_wait, hwait]) hfetch, State.advancePc, State.storeBytes_pc]

end Sys2Proof.Machine
end

section
/-! SUPPORT. The decoder against the encoder and the opcode map (spec/30_encoding.md R92 to R103): a word is what its
fields make in each format, so the decoder and the encoder are inverse to each other, the recognised words are those of
the 34 rows, and the others are rejected under the name of their class. -/

namespace Sys2Proof

/-! A word in the three formats. -/

section
variable {w : Word} {c : Nibble}

theorem formatA_fields (hc : fieldC w = c) : formatA c (fieldNnn w) = w := by
  subst hc
  apply BitVec.eq_of_toNat_eq
  rw [formatA_toNat, fieldC_toNat, fieldNnn_toNat]
  omega

theorem formatXK_fields {kk : Byte} (hc : fieldC w = c) (hkk : fieldKk w = kk) : formatXK c (fieldX w) kk = w := by
  subst hc hkk
  apply BitVec.eq_of_toNat_eq
  rw [formatXK_toNat, fieldC_toNat, fieldX_toNat, fieldKk_toNat]
  omega

theorem formatXY_fields {d : Nibble} (hc : fieldC w = c) (hd : fieldN w = d) :
    formatXY c (fieldX w) (fieldY w) d = w := by
  subst hc hd
  apply BitVec.eq_of_toNat_eq
  rw [formatXY_toNat, fieldC_toNat, fieldX_toNat, fieldY_toNat, fieldN_toNat]
  omega

end

/-- The class as a number: the word has 16 bits, so nothing stands above it. -/
theorem fieldC_toNat_eq_div (w : Word) : (fieldC w).toNat = w.toNat / 4096 := by
  rw [fieldC_toNat]
  omega

theorem fieldC_and (v w : Word) : fieldC (v &&& w) = fieldC v &&& fieldC w := BitVec.extractLsb'_and

theorem fieldN_and (v w : Word) : fieldN (v &&& w) = fieldN v &&& fieldN w := BitVec.extractLsb'_and

theorem fieldKk_and (v w : Word) : fieldKk (v &&& w) = fieldKk v &&& fieldKk w := BitVec.extractLsb'_and

/-! Encode, then decode. -/

/-- THE DECODER READS BACK EVERY INSTRUCTION: each field of the encoded word is the operand or the digit put there. -/
theorem decodeWord_encodeWord (i : Instr) : decodeWord (encodeWord i) = .ok i := by
  cases i with
  | cls | ret => rfl
  | jp | call | ldI | jpV0 | seImm | sneImm | ldImm | addImm | rnd | drw => simp [encodeWord, decodeWord]
  | seReg => simp [encodeWord, decodeWord, decodeClass5]
  | sneReg => simp [encodeWord, decodeWord, decodeClass9]
  | ldReg | orReg | andReg | xorReg | addReg | subReg | shrReg | subnReg | shlReg =>
    simp [encodeWord, decodeWord, decodeClass8]
  | skp | sknp => simp [encodeWord, decodeWord, decodeClassE]
  | ldVxDt | ldVxK | ldDtVx | ldStVx | addI | ldF | ldB | stRegs | ldRegs =>
    simp [encodeWord, decodeWord, decodeClassF]

/-- The bytes of a word decode as the word does, and what follows them is left. -/
theorem decode_bytesOfWord_append (w : Word) (rest : List Byte) :
    decode (bytesOfWord w ++ rest) = (decodeWord w).map (fun i => (i, rest)) := by
  simp [bytesOfWord, decode, wordOfBytes_bytes]

/-- Settles O1: every word of an instruction decodes to it, and a word is what its two bytes make. -/
theorem decodeInvertsEncode : Obligations.DecodeInvertsEncode := by
  intro i rest
  rw [encode, decode_bytesOfWord_append, decodeWord_encodeWord]
  rfl

/-- Settles O5: by running the decoder on each word. -/
theorem specWordsDecode : Obligations.SpecWordsDecode :=
  ⟨rfl, rfl, rfl, rfl, rfl, rfl, rfl, rfl, rfl, rfl, rfl, rfl, rfl, rfl, rfl, rfl⟩

/-! Decode, then encode: class by class, the digits the decoder has tested and the fields it has kept make the word. -/

section
variable {w : Word} {i : Instr}

theorem encodeWord_of_decodeClass0 (h : decodeClass0 w = .ok i) : encodeWord i = w := by
  unfold decodeClass0 at h
  split_ifs at h with h1 h2 <;> cases h
  · exact h1.symm
  · exact h2.symm

theorem encodeWord_of_decodeClass5 (hc : fieldC w = 0x5#4) (h : decodeClass5 w = .ok i) : encodeWord i = w := by
  unfold decodeClass5 at h
  split_ifs at h with hn
  cases h
  exact formatXY_fields hc hn

theorem encodeWord_of_decodeClass8 (hc : fieldC w = 0x8#4) (h : decodeClass8 w = .ok i) : encodeWord i = w := by
  unfold decodeClass8 at h
  split at h <;> cases h
  all_goals exact formatXY_fields hc (BitVec.eq_of_toNat_eq ‹_›)

theorem encodeWord_of_decodeClass9 (hc : fieldC w = 0x9#4) (h : decodeClass9 w = .ok i) : encodeWord i = w := by
  unfold decodeClass9 at h
  split_ifs at h with hn
  cases h
  exact formatXY_fields hc hn

theorem encodeWord_of_decodeClassE (hc : fieldC w = 0xE#4) (h : decodeClassE w = .ok i) : encodeWord i = w := by
  unfold decodeClassE at h
  split_ifs at h with h1 h2 <;> cases h
  all_goals exact formatXK_fields hc ‹_›

theorem encodeWord_of_decodeClassF (hc : fieldC w = 0xF#4) (h : decodeClassF w = .ok i) : encodeWord i = w := by
  unfold decodeClassF at h
  split_ifs at h <;> cases h
  all_goals exact formatXK_fields hc ‹_›

/-- NO BIT OF A RECOGNISED WORD IS DROPPED, whatever its class: the classes of one instruction by their format, the
others by their own decoder. -/
theorem encodeWord_of_decodeWord (h : decodeWord w = .ok i) : encodeWord i = w := by
  unfold decodeWord at h
  split at h
  -- JP, CALL, LD I, JP V0
  case h_2 hc | h_3 hc | h_11 hc | h_12 hc => cases h; exact formatA_fields (BitVec.eq_of_toNat_eq hc)
  -- SE, SNE, LD, ADD with an immediate, and RND
  case h_4 hc | h_5 hc | h_7 hc | h_8 hc | h_13 hc => cases h; exact formatXK_fields (BitVec.eq_of_toNat_eq hc) rfl
  -- DRW
  case h_14 hc => cases h; exact formatXY_fields (BitVec.eq_of_toNat_eq hc) rfl
  case h_1 => exact encodeWord_of_decodeClass0 h
  case h_6 hc => exact encodeWord_of_decodeClass5 (BitVec.eq_of_toNat_eq hc) h
  case h_9 hc => exact encodeWord_of_decodeClass8 (BitVec.eq_of_toNat_eq hc) h
  case h_10 hc => exact encodeWord_of_decodeClass9 (BitVec.eq_of_toNat_eq hc) h
  case h_15 hc => exact encodeWord_of_decodeClassE (BitVec.eq_of_toNat_eq hc) h
  -- a class that is none of 0 to 14
  case h_16 =>
    have hlt := (fieldC w).isLt
    simp only [imp_false] at *
    exact encodeWord_of_decodeClassF (by bv_omega) h

end

/-- Settles O2: by the word's class. -/
theorem encodeInvertsDecode : Obligations.EncodeInvertsDecode := fun _ _ => encodeWord_of_decodeWord

/-! The rows of the opcode map. -/

open Laws.RowMatch in
/-- The word of every instruction is accepted by the instruction's own row. -/
theorem encodeWord_rowMatch (i : Instr) : Statement i := by
  cases i
  exacts [cls, ret, jp _, call _, seImm _ _, sneImm _ _, seReg _ _, ldImm _ _, addImm _ _, ldReg _ _, orReg _ _,
    andReg _ _, xorReg _ _, addReg _ _, subReg _ _, shrReg _ _, subnReg _ _, shlReg _ _, sneReg _ _, ldI _, jpV0 _,
    rnd _ _, drw _ _ _, skp _, sknp _, ldVxDt _, ldVxK _, ldDtVx _, ldStVx _, addI _, ldF _, ldB _, stRegs _, ldRegs _]

/-- A recognised word matches the row of the instruction it decodes to. -/
theorem row_of_decodeWord {w : Word} {i : Instr} (h : decodeWord w = .ok i) : w &&& i.row.mask = i.row.bits :=
  encodeWord_of_decodeWord h ▸ encodeWord_rowMatch i

/-- One instruction of each row, in the map's order. -/
def rowInstrs : List Instr :=
  [.cls, .ret, .jp 0, .call 0, .seImm 0 0, .sneImm 0 0, .seReg 0 0, .ldImm 0 0, .addImm 0 0, .ldReg 0 0, .orReg 0 0,
    .andReg 0 0, .xorReg 0 0, .addReg 0 0, .subReg 0 0, .shrReg 0 0, .subnReg 0 0, .shlReg 0 0, .sneReg 0 0, .ldI 0,
    .jpV0 0, .rnd 0 0, .drw 0 0 0, .skp 0, .sknp 0, .ldVxDt 0, .ldVxK 0, .ldDtVx 0, .ldStVx 0, .addI 0, .ldF 0, .ldB 0,
    .stRegs 0, .ldRegs 0]

theorem opcodeMap_eq_map_row : opcodeMap = rowInstrs.map Instr.row := rfl

/-- The map has a row for every instruction. -/
theorem row_mem_opcodeMap (i : Instr) : i.row ∈ opcodeMap := by
  rw [opcodeMap_eq_map_row]
  cases i <;> simp [rowInstrs, Instr.row]

/-- The map has no row but those of instructions. -/
theorem exists_row_eq {r : OpcodeRow} (hr : r ∈ opcodeMap) : ∃ i : Instr, i.row = r := by
  rw [opcodeMap_eq_map_row] at hr
  obtain ⟨i, _, hi⟩ := List.mem_map.mp hr
  exact ⟨i, hi⟩

/-! A field that a mask fixes is the row's. -/

section
variable {w m b : Word} (h : w &&& m = b)
include h

theorem fieldC_of_mask (hm : fieldC m = 0xF#4) : fieldC w = fieldC b := by
  rw [← h, fieldC_and, hm]
  exact BitVec.and_allOnes.symm

theorem fieldN_of_mask (hm : fieldN m = 0xF#4) : fieldN w = fieldN b := by
  rw [← h, fieldN_and, hm]
  exact BitVec.and_allOnes.symm

theorem fieldKk_of_mask (hm : fieldKk m = 0xFF#8) : fieldKk w = fieldKk b := by
  rw [← h, fieldKk_and, hm]
  exact BitVec.and_allOnes.symm

end

/-- A WORD THAT MATCHES A ROW IS RECOGNISED: the digits the row fixes are those the decoder tests. -/
theorem exists_decodeWord_of_row {w : Word} {i : Instr} (h : w &&& i.row.mask = i.row.bits) :
    ∃ j, decodeWord w = .ok j := by
  cases i with
  | cls | ret =>
    have hw : w = _ := BitVec.and_allOnes.symm.trans h
    rw [hw]
    exact ⟨_, rfl⟩
  | jp | call | seImm | sneImm | ldImm | addImm | ldI | jpV0 | rnd | drw =>
    dsimp only [Instr.row] at h
    rw [decodeWord, fieldC_of_mask h rfl]
    exact ⟨_, rfl⟩
  | seReg | sneReg =>
    dsimp only [Instr.row] at h
    rw [decodeWord, decodeClass5, decodeClass9, fieldC_of_mask h rfl, fieldN_of_mask h rfl]
    exact ⟨_, rfl⟩
  | ldReg | orReg | andReg | xorReg | addReg | subReg | shrReg | subnReg | shlReg =>
    dsimp only [Instr.row] at h
    rw [decodeWord, decodeClass8, fieldC_of_mask h rfl, fieldN_of_mask h rfl]
    exact ⟨_, rfl⟩
  | skp | sknp =>
    dsimp only [Instr.row] at h
    rw [decodeWord, decodeClassE, fieldC_of_mask h rfl, fieldKk_of_mask h rfl]
    exact ⟨_, rfl⟩
  | ldVxDt | ldVxK | ldDtVx | ldStVx | addI | ldF | ldB | stRegs | ldRegs =>
    dsimp only [Instr.row] at h
    rw [decodeWord, decodeClassF, fieldC_of_mask h rfl, fieldKk_of_mask h rfl]
    exact ⟨_, rfl⟩

/-- Settles O3: a recognised word matches its instruction's row, which is in the map; and each row of the map is an
instruction's, so a word that matches it is recognised. -/
theorem decodeAcceptsExactlyTheOpcodeMap : Obligations.DecodeAcceptsExactlyTheOpcodeMap := by
  refine ⟨fun w => ⟨?_, ?_⟩, fun _ _ => row_of_decodeWord⟩
  · rintro ⟨i, h⟩
    exact ⟨i.row, row_mem_opcodeMap i, row_of_decodeWord h⟩
  · rintro ⟨r, hr, h⟩
    obtain ⟨i, rfl⟩ := exists_row_eq hr
    exact exists_decodeWord_of_row h

/-! The unrecognised words. -/

section
variable {w : Word} {e : Reject}

/-- A decoder that tests and then goes on rejects exactly when the test fails and what follows rejects. -/
theorem ite_ok_eq_error {p : Prop} [Decidable p] {i : Instr} {r : Except Reject Instr} :
    (if p then .ok i else r) = .error e ↔ ¬ p ∧ r = .error e := by
  by_cases hp : p <;> simp [hp]

theorem decodeClass0_eq_error :
    decodeClass0 w = .error e ↔ w.toNat ≠ 0x00E0 ∧ w.toNat ≠ 0x00EE ∧ e = .class0 w := by
  simp [decodeClass0, ite_ok_eq_error, ← BitVec.toNat_inj, @eq_comm _ e]

theorem decodeClass5_eq_error : decodeClass5 w = .error e ↔ w.toNat % 16 ≠ 0 ∧ e = .class5 w := by
  simp [decodeClass5, ite_ok_eq_error, ← BitVec.toNat_inj, fieldN_toNat, @eq_comm _ e]

theorem decodeClass9_eq_error : decodeClass9 w = .error e ↔ w.toNat % 16 ≠ 0 ∧ e = .class9 w := by
  simp [decodeClass9, ite_ok_eq_error, ← BitVec.toNat_inj, fieldN_toNat, @eq_comm _ e]

/-- By the value of the last digit. -/
theorem decodeClass8_eq_error :
    decodeClass8 w = .error e ↔ w.toNat % 16 ∈ [8, 9, 10, 11, 12, 13, 15] ∧ e = .class8 w := by
  unfold decodeClass8
  rw [fieldN_toNat]
  generalize hn : w.toNat % 16 = n
  have hlt : n < 16 := by omega
  interval_cases n <;> simp [eq_comm]

theorem decodeClassE_eq_error : decodeClassE w = .error e ↔ w.toNat % 256 ∉ [0x9E, 0xA1] ∧ e = .classE w := by
  simp [decodeClassE, ite_ok_eq_error, ← BitVec.toNat_inj, fieldKk_toNat, and_assoc, @eq_comm _ e]

theorem decodeClassF_eq_error : decodeClassF w = .error e ↔
    w.toNat % 256 ∉ [0x07, 0x0A, 0x15, 0x18, 0x1E, 0x29, 0x33, 0x55, 0x65] ∧ e = .classF w := by
  simp [decodeClassF, ite_ok_eq_error, ← BitVec.toNat_inj, fieldKk_toNat, and_assoc, @eq_comm _ e]

/-- ONLY SIX CLASSES REJECT, each as its own discriminator says. -/
theorem decodeWord_eq_error : decodeWord w = .error e ↔
    (w.toNat / 4096 = 0 ∧ decodeClass0 w = .error e) ∨ (w.toNat / 4096 = 5 ∧ decodeClass5 w = .error e) ∨
    (w.toNat / 4096 = 8 ∧ decodeClass8 w = .error e) ∨ (w.toNat / 4096 = 9 ∧ decodeClass9 w = .error e) ∨
    (w.toNat / 4096 = 14 ∧ decodeClassE w = .error e) ∨ (w.toNat / 4096 = 15 ∧ decodeClassF w = .error e) := by
  have hlt : w.toNat / 4096 < 16 := by have := w.isLt; omega
  unfold decodeWord
  rw [fieldC_toNat_eq_div]
  generalize w.toNat / 4096 = c at hlt ⊢
  interval_cases c <;> simp

end

/-- The words of every other class are all recognised. -/
theorem exists_decodeWord_of_class {w : Word} (h : w.toNat / 4096 ∉ [0, 5, 8, 9, 14, 15]) :
    ∃ i, decodeWord w = .ok i := by
  cases hd : decodeWord w with
  | ok i => exact ⟨i, rfl⟩
  | error e =>
    refine absurd ?_ h
    obtain ⟨hc, _⟩ | ⟨hc, _⟩ | ⟨hc, _⟩ | ⟨hc, _⟩ | ⟨hc, _⟩ | ⟨hc, _⟩ := decodeWord_eq_error.mp hd <;> simp [hc]

/-- Settles O4: a word is rejected by the decoder of its class, and the six have different names for it. -/
theorem unrecognisedWordsByClass : Obligations.UnrecognisedWordsByClass := by
  intro w
  refine ⟨?_, ?_, ?_, ?_, ?_, ?_, exists_decodeWord_of_class⟩
  all_goals simp [decodeWord_eq_error, decodeClass0_eq_error, decodeClass5_eq_error, decodeClass8_eq_error,
    decodeClass9_eq_error, decodeClassE_eq_error, decodeClassF_eq_error]

end Sys2Proof
end

section
/-! SUPPORT. The step (spec/30_encoding.md R100 to R104): what it does with a word that is recognised, with one that is
not, and while awaiting a key; and which instructions redirect pc. -/

namespace Sys2Proof.Machine

/-! A step that fetches. -/

/-- Settles O6: the advance of pc changes pc alone. -/
theorem stepRunsDecodedInstruction : Obligations.StepRunsDecodedInstruction :=
  fun _ _ hwait hdec => step_eq_exec hwait hdec

/-- Not awaiting a key, a step whose fetched word does not decode notifies the host with pc advanced. -/
theorem step_eq_unrecognised {s : State} {e : Reject} (hwait : s.wait = none)
    (hdec : decodeWord (fetchWord s) = .error e) : step s = .next (s.advancePc.notifyHost (fetchWord s)) := by
  obtain ⟨x, hx, _⟩ | ⟨i, _, hi, _⟩ | ⟨_, _, _, hstep⟩ := step_cases s
  · cases hwait.symm.trans hx
  · cases hdec.symm.trans hi
  · exact hstep

/-- Settles O7: the advance sets pc, the notification goes to the host's channel, and no other piece is touched. -/
theorem unrecognisedWordIsNoOp : Obligations.UnrecognisedWordIsNoOp := by
  intro s e hwait hdec
  refine ⟨_, step_eq_unrecognised hwait hdec, ?_, ?_, ?_⟩
  · rw [State.notifyHost_pc, State.advancePc_toNat]
  · rw [State.notifyHost_diags, State.advancePc_diags]; rfl
  · exact s.advancePc_onlyChanges.append (State.notifyHost_onlyChanges _ _)

/-! A step while awaiting a key. -/

section
variable {s : State} {x : RegIdx} (hwait : s.wait = some x)
include hwait

theorem step_eq_recheckKeys : step s = recheckKeys x s := by
  obtain ⟨y, hy, hstep⟩ | ⟨_, hnone, _, _⟩ | ⟨_, hnone, _, _⟩ := step_cases s
  · cases hwait.symm.trans hy; exact hstep
  · cases hwait.symm.trans hnone
  · cases hwait.symm.trans hnone

/-- With no line active the step answers the state itself. -/
theorem step_eq_self_of_no_key (hkeys : ∀ k, k < 16 → s.keyActive k = false) : step s = .next s := by
  rw [step_eq_recheckKeys hwait, recheckKeys, scanKeys_eq_none.mpr hkeys]

/-- With a line active the step takes the lowest and ends the wait. -/
theorem step_eq_takeKey {k : Nat} (hk : k < 16) (hact : s.keyActive k = true)
    (hlow : ∀ j, j < k → s.keyActive j = false) :
    step s = .next ((s.setReg x (BitVec.ofNat 8 k)).setWait none) := by
  rw [step_eq_recheckKeys hwait, recheckKeys, scanKeys_eq_some.mpr ⟨hk, hact, hlow⟩]

end

/-- Settles O8: the scan answers the lowest active line, which is below 16 and so fits the register. -/
theorem awaitingKeyStepRechecksKeypad : Obligations.AwaitingKeyStepRechecksKeypad := by
  intro s x hwait
  refine ⟨step_eq_self_of_no_key hwait, fun k hk hact hlow => ⟨_, step_eq_takeKey hwait hk hact hlow, ?_, ?_, ?_, ?_⟩⟩
  · rw [State.setWait_reg, State.reg_setReg_self, BitVec.toNat_ofNat, Nat.mod_eq_of_lt (by omega)]
  · rw [State.setWait_wait]
  · intro r hr
    rw [State.setWait_reg, State.reg_setReg_ne _ _ (List.ne_of_not_mem_cons hr)]
  · exact (s.setReg_onlyChanges x _).append (State.setWait_onlyChanges _ none)

/-! The instructions that redirect pc. -/

theorem pc_mem_changedParts (i : Instr) : .pc ∈ changedParts i ↔
    i = .ret ∨ (∃ nnn, i = .jp nnn) ∨ (∃ nnn, i = .call nnn) ∨ (∃ nnn, i = .jpV0 nnn) ∨
    (∃ x kk, i = .seImm x kk ∨ i = .sneImm x kk) ∨ (∃ x y, i = .seReg x y ∨ i = .sneReg x y) ∨
    ∃ x, i = .skp x ∨ i = .sknp x := by
  cases i <;> simp [changedParts]

/-- A skip leaves pc or moves it 2 further. -/
theorem State.skipIf_pc (s : State) (c : Bool) :
    (s.skipIf c).pc = s.pc ∨ (s.skipIf c).pc.toNat = (s.pc.toNat + 2) % 4096 := by
  cases c
  · exact .inl rfl
  · exact .inr s.advancePc_toNat

/-- Settles O22: pc is a changed piece of jumps, calls, returns and skips alone, and a skip only advances it. -/
theorem pcRedirectedOnlyAsListed : Obligations.PcRedirectedOnlyAsListed := by
  intro i s t h hret hjp hcall hjpV0
  by_cases hpc : .pc ∈ changedParts i
  · obtain hi | ⟨nnn, hi⟩ | ⟨nnn, hi⟩ | ⟨nnn, hi⟩ | hskip := (pc_mem_changedParts i).mp hpc
    · exact absurd hi hret
    · exact absurd hi (hjp nnn)
    · exact absurd hi (hcall nnn)
    · exact absurd hi (hjpV0 nnn)
    · refine (?_ : t.pc = s.pc ∨ t.pc.toNat = (s.pc.toNat + 2) % 4096).imp_right fun ht => ⟨hskip, ht⟩
      obtain ⟨x, kk, rfl | rfl⟩ | ⟨x, y, rfl | rfl⟩ | ⟨x, rfl | rfl⟩ := hskip <;> cases h <;> exact s.skipIf_pc _
  · exact .inl (exec_onlyChanges h .pc hpc)

end Sys2Proof.Machine
end

section
/-! SUPPORT. Control transfer (spec/40_flow.md R120 to R124): RET and CALL from a stack pointer they complete with, the
two jumps, and a CALL followed by the RET at its target. -/

namespace Sys2Proof.Machine

/-! The program counter. -/

/-- An address below 4096 reaches pc unreduced. -/
theorem State.setPc_toNat_of_lt (s : State) {a : Nat} (ha : a < 4096) : (s.setPc a).pc.toNat = a :=
  (s.setPc_toNat a).trans (Nat.mod_eq_of_lt ha)

/-- An `nnn` field has 12 bits, so pc becomes it exactly. -/
theorem State.setPc_addr (s : State) (nnn : Addr) : (s.setPc nnn.toNat).pc.toNat = nnn.toNat :=
  s.setPc_toNat_of_lt nnn.isLt

/-! Jumps. -/

/-- Settles O24: the word is the encoding of JP, and the 12-bit target reaches pc unreduced. -/
theorem jpSetsPc : Obligations.JpSetsPc :=
  fun nnn => ⟨decodeWord_encodeWord (.jp nnn), fun s => ⟨_, rfl, s.setPc_addr nnn, s.setPc_onlyChanges _⟩⟩

/-- Settles O26: the word is the encoding of JP V0, and a write of pc reduces the sum modulo 4096. -/
theorem jpV0AddsOffset : Obligations.JpV0AddsOffset :=
  fun nnn => ⟨decodeWord_encodeWord (.jpV0 nnn), fun s => ⟨_, rfl, s.setPc_toNat _, s.setPc_onlyChanges _⟩⟩

/-! RET and CALL by the value of SP. -/

section
variable {s : State}

theorem execRet_eq_fault (hsp : s.sp.toNat = 0) : execRet s = .fault .stackUnderflow := by
  obtain ⟨_, h⟩ | ⟨hpos, _, _⟩ | ⟨hbig, _⟩ := execRet_cases s
  · exact h
  · omega
  · omega

theorem execRet_eq_next (hpos : 0 < s.sp.toNat) (hle : s.sp.toNat ≤ 16) :
    execRet s = .next (s.dropTop.setPc (s.stackSlot (s.sp.toNat - 1)).toNat) := by
  obtain ⟨hzero, _⟩ | ⟨_, _, h⟩ | ⟨hbig, _⟩ := execRet_cases s
  · omega
  · exact h
  · omega

theorem execCall_eq_fault (nnn : Addr) (hsp : s.sp.toNat = 16) : execCall nnn s = .fault .stackOverflow := by
  obtain ⟨_, h⟩ | ⟨hlt, _⟩ | ⟨hbig, _⟩ := execCall_cases nnn s
  · exact h
  · omega
  · omega

theorem execCall_eq_next (nnn : Addr) (hsp : s.sp.toNat < 16) :
    execCall nnn s = .next ((s.push s.pc).setPc nnn.toNat) := by
  obtain ⟨hfull, _⟩ | ⟨_, h⟩ | ⟨hbig, _⟩ := execCall_cases nnn s
  · omega
  · exact h
  · omega

end

/-- Settles O23: under the invariants SP is at most 16 and the popped entry is an address, so pc takes it unreduced. -/
theorem retPopsReturnAddress : Obligations.RetPopsReturnAddress := by
  refine ⟨decodeWord_encodeWord .ret, fun s => ⟨execRet_eq_fault, fun hinv hpos => ?_⟩⟩
  have hle := hinv.sp_le
  have hnext := execRet_eq_next hpos hle
  have hsp := s.dropTop_sp_toNat hpos
  refine ⟨_, hnext, ?_, ?_, (execRet_onlyChanges hnext).mono (by decide)⟩
  · rw [State.setPc_sp, hsp]
    omega
  · apply BitVec.eq_of_toNat_eq
    rw [State.setPc_toNat_of_lt _ (hinv.stack_lt _ (by omega)), State.setPc_sp, hsp]

/-- Settles O25: CALL pushes the pc it finds, which the fetch has advanced, and the push writes the entry at SP alone. -/
theorem callPushesReturnAddress : Obligations.CallPushesReturnAddress := by
  refine fun nnn => ⟨decodeWord_encodeWord (.call nnn), fun s => ⟨execCall_eq_fault nnn, fun hlt => ?_⟩⟩
  have hnext := execCall_eq_next nnn hlt
  refine ⟨_, hnext, ?_, ?_, State.setPc_addr _ nnn, ?_, (execCall_onlyChanges hnext).mono (by simp [changedParts])⟩
  · rw [State.setPc_stackSlot, s.stackSlot_push _ _ hlt, if_pos rfl]
  · rw [State.setPc_sp, s.push_sp_toNat _ hlt]
  · intro k hk hne
    rw [State.setPc_stackSlot, s.stackSlot_push _ _ hk, if_neg hne]

/-! A CALL, then the RET at its target. -/

/-- A piece that has its old value again at the end has not changed. -/
theorem OnlyChanges.of_same {p : Part} {ps : List Part} {s t : State} (h : OnlyChanges (p :: ps) s t)
    (hp : p.Same s t) : OnlyChanges ps s t := by
  intro q hq
  by_cases hqp : q = p
  · exact hqp ▸ hp
  · exact h q (by simp [hqp, hq])

/-- The word at pc, when pc stands at `a` and memory is that of an earlier state. -/
theorem fetchWord_of_mem_same {s t : State} {a : Nat} (hmem : Part.mem.Same s t) (hpc : t.pc.toNat = a) :
    fetchWord t = s.memRead a ++ s.memRead (a + 1) := by
  rw [fetchWord, hpc, hmem a, hmem (a + 1)]
  rfl

/-- A step that runs a CALL with room on the stack: what CALL does, seen from the state before the fetch. -/
theorem step_call {s : State} {nnn : Addr} (hwait : s.wait = none) (hlt : s.sp.toNat < 16)
    (hdec : decodeWord (fetchWord s) = .ok (.call nnn)) :
    ∃ t, step s = .next t ∧ (t.stackSlot s.sp.toNat).toNat = (s.pc.toNat + 2) % 4096 ∧
      t.sp.toNat = s.sp.toNat + 1 ∧ t.pc.toNat = nnn.toNat ∧
      (∀ k, k < 16 → k ≠ s.sp.toNat → t.stackSlot k = s.stackSlot k) ∧ OnlyChanges [.sp, .pc, .stack] s t := by
  have hlt' : s.advancePc.sp.toNat < 16 := s.advancePc_sp ▸ hlt
  obtain ⟨_, hcall⟩ := callPushesReturnAddress nnn
  obtain ⟨_, hroom⟩ := hcall s.advancePc
  obtain ⟨t, ht, hslot, hsp, hpc, hother, hframe⟩ := hroom hlt'
  simp only [State.advancePc_sp, State.advancePc_stackSlot] at hslot hsp hother
  refine ⟨t, (step_eq_exec hwait hdec).trans ht, ?_, hsp, hpc, hother, ?_⟩
  · rw [hslot, State.advancePc_toNat]
  · exact (s.advancePc_onlyChanges.append hframe).mono (by decide)

/-- A step that runs a RET with an entry on the stack: pc is that entry, the fetch's advance overwritten. -/
theorem step_ret {s : State} (hinv : MachineInv s) (hwait : s.wait = none) (hpos : 0 < s.sp.toNat)
    (hdec : decodeWord (fetchWord s) = .ok .ret) :
    ∃ t, step s = .next t ∧ t.sp.toNat + 1 = s.sp.toNat ∧ t.pc = s.stackSlot t.sp.toNat ∧
      OnlyChanges [.sp, .pc] s t := by
  have hpos' : 0 < s.advancePc.sp.toNat := s.advancePc_sp ▸ hpos
  obtain ⟨_, hret⟩ := retPopsReturnAddress
  obtain ⟨_, hentry⟩ := hret s.advancePc
  obtain ⟨t, ht, hsp, hpc, hframe⟩ := hentry hinv.advancePc hpos'
  rw [State.advancePc_sp] at hsp
  rw [State.advancePc_stackSlot] at hpc
  exact ⟨t, (step_eq_exec hwait hdec).trans ht, hsp, hpc, (s.advancePc_onlyChanges.append hframe).mono (by decide)⟩

/-- Settles O27: the CALL changes no memory, so the RET is fetched at the target; it pops the entry the CALL has pushed,
and as it leaves the stack's content alone, that entry still holds the return address. -/
theorem callThenReturnRestores : Obligations.CallThenReturnRestores := by
  intro s nnn hinv hwait hlt hcall hret
  obtain ⟨t, hst, hslot, hspt, hpct, hother, hframet⟩ := step_call hwait hlt hcall
  have hwaitt : t.wait = none := (hframet .wait (by decide)).trans hwait
  have hrett : decodeWord (fetchWord t) = .ok .ret := by
    rw [fetchWord_of_mem_same (hframet .mem (by decide)) hpct, hret]
  obtain ⟨u, htu, hspu, hpcu, hframeu⟩ := step_ret (step_machineInv hinv hst) hwaitt (by omega) hrett
  have hsp : u.sp = s.sp := BitVec.eq_of_toNat_eq (by omega)
  have hstack : Part.stack.Same t u := hframeu .stack (by decide)
  refine ⟨t, u, hst, htu, ?_, hsp, ?_, ?_, ?_⟩
  · rw [hpcu, hsp, hslot]
  · rw [hstack _ hlt, hslot]
  · exact fun k hk hne => (hstack k hk).trans (hother k hk hne)
  · exact (hframet.trans (hframeu.mono (by decide))).of_same hsp

end Sys2Proof.Machine
end

section
/-! SUPPORT. Skips on a comparison (spec/41_skip.md R130 to R133): where a skip taken on equality or on inequality leaves
pc, and the words of the register skips whose last digit is not 0 (spec/30_encoding.md R96). -/

namespace Sys2Proof.Machine

/-! The skip on a comparison of two bytes. -/

section
variable (s : State) (a b : Byte)

theorem State.skipIf_beq_toNat :
    (s.skipIf (a == b)).pc.toNat = if a = b then (s.pc.toNat + 2) % 4096 else s.pc.toNat := by
  simp only [State.skipIf_toNat, beq_iff_eq]

theorem State.skipIf_bne_toNat :
    (s.skipIf (a != b)).pc.toNat = if a = b then s.pc.toNat else (s.pc.toNat + 2) % 4096 := by
  simp only [State.skipIf_toNat, bne_iff_ne, ite_not]

end

/-! The unrecognised words of classes 5 and 9. -/

section
variable (x y : RegIdx) {n : Nibble} (hn : n ≠ 0)
include hn

theorem decodeWord_formatXY_class5 :
    decodeWord (formatXY 0x5#4 x y n) = .error (.class5 (formatXY 0x5#4 x y n)) := by
  rw [decodeWord, fieldC_formatXY]
  exact if_neg (by rwa [fieldN_formatXY])

theorem decodeWord_formatXY_class9 :
    decodeWord (formatXY 0x9#4 x y n) = .error (.class9 (formatXY 0x9#4 x y n)) := by
  rw [decodeWord, fieldC_formatXY]
  exact if_neg (by rwa [fieldN_formatXY])

end

/-- Settles O28: the words are the encodings of SE and SNE, and a skip taken or not changes pc alone. -/
theorem skipOnImmediate : Obligations.SkipOnImmediate := by
  refine fun x kk => ⟨decodeWord_encodeWord (.seImm x kk), decodeWord_encodeWord (.sneImm x kk), fun s => ⟨?_, ?_⟩⟩
  · exact ⟨_, rfl, s.skipIf_onlyChanges _, s.skipIf_beq_toNat _ _⟩
  · exact ⟨_, rfl, s.skipIf_onlyChanges _, s.skipIf_bne_toNat _ _⟩

/-- Settles O29: as with an immediate, the second operand a register; a last digit other than 0 is what the decoders of
classes 5 and 9 reject. -/
theorem skipOnRegisters : Obligations.SkipOnRegisters := by
  refine fun x y => ⟨decodeWord_encodeWord (.seReg x y), decodeWord_encodeWord (.sneReg x y), fun n hn => ⟨?_, ?_⟩,
    fun s => ⟨?_, ?_⟩⟩
  · exact ⟨_, decodeWord_formatXY_class5 x y hn⟩
  · exact ⟨_, decodeWord_formatXY_class9 x y hn⟩
  · exact ⟨_, rfl, s.skipIf_onlyChanges _, s.skipIf_beq_toNat _ _⟩
  · exact ⟨_, rfl, s.skipIf_onlyChanges _, s.skipIf_bne_toNat _ _⟩

end Sys2Proof.Machine
end

section
/-! SUPPORT. Load and add immediate (spec/42_load_add_imm.md R140, R141): each is one register write, V[15] being a
destination like any other. -/

namespace Sys2Proof.Machine

/-- A register write leaves every other register alone, V[15] among them. -/
theorem State.setReg_regsSameBut (s : State) (x : RegIdx) (b : Byte) : RegsSameBut [x] s (s.setReg x b) :=
  fun _ hr => s.reg_setReg_ne b (List.ne_of_not_mem_cons hr)

/-- Settles O30: the word is the encoding of LD, and the instruction is one write of the immediate to V[x]. -/
theorem ldImmLoadsRegister : Obligations.LdImmLoadsRegister := by
  refine fun x kk => ⟨decodeWord_encodeWord (.ldImm x kk), fun s => ⟨s.setReg x kk, rfl, ?_, ?_, ?_⟩⟩
  · exact s.reg_setReg_self x kk
  · exact s.setReg_regsSameBut x kk
  · exact s.setReg_onlyChanges x kk

/-- Settles O31: the word is the encoding of ADD, and the instruction is one write of the byte sum to V[x], with no write
of the flag after it. -/
theorem addImmWrapsWithoutFlag : Obligations.AddImmWrapsWithoutFlag := by
  refine fun x kk => ⟨decodeWord_encodeWord (.addImm x kk),
    fun s => ⟨s.setReg x (addBytes (s.reg x) kk), rfl, ?_, ?_, ?_⟩⟩
  · rw [State.reg_setReg_self, addBytes_toNat]
  · exact s.setReg_regsSameBut x _
  · exact s.setReg_onlyChanges x _

end Sys2Proof.Machine
end

section
/-! SUPPORT. Register-register ALU, class 8 (spec/43_alu.md R150 to R160): what the destination and the flag register read
after the two writes, in that order (D8, log 11), and the values written as the spec's numbers and bits. -/

namespace Sys2Proof.Machine

/-! The two writes of class 8. -/

section
variable (s : State) (x : RegIdx) (a f : Byte)

/-- The flag is written last, so V[15] holds it even when x is 15. -/
theorem State.reg_setResultThenFlag_flag : (s.setResultThenFlag x a f).reg 15 = f := by
  rw [State.reg_setResultThenFlag, if_pos rfl]

theorem State.reg_setResultThenFlag_self {x : RegIdx} (hx : x ≠ 15) : (s.setResultThenFlag x a f).reg x = a := by
  rw [State.reg_setResultThenFlag, if_neg hx, if_pos rfl]

theorem State.setResultThenFlag_regsSameBut : RegsSameBut [x, 15] s (s.setResultThenFlag x a f) :=
  fun r hr => s.reg_setResultThenFlag_ne a f (by simpa using hr)

end

/-- What an instruction of class 8 other than LD does, once: result, flag and frame. -/
theorem State.next_setResultThenFlag (s : State) (x : RegIdx) (a f : Byte) :
    ∃ t, (.next (s.setResultThenFlag x a f) : Result) = .next t ∧ (x ≠ 15 → t.reg x = a) ∧ t.reg 15 = f ∧
      RegsSameBut [x, 15] s t ∧ OnlyChanges [.regs] s t := by
  refine ⟨_, rfl, fun hx => ?_, ?_, ?_, ?_⟩
  · exact s.reg_setResultThenFlag_self a f hx
  · exact s.reg_setResultThenFlag_flag x a f
  · exact s.setResultThenFlag_regsSameBut x a f
  · exact s.setResultThenFlag_onlyChanges x a f

/-- The same for a result and a flag known as numbers. -/
theorem State.next_setResultThenFlag_toNat (s : State) (x : RegIdx) {a f : Byte} {m n : Nat} (ha : a.toNat = m)
    (hf : f.toNat = n) :
    ∃ t, (.next (s.setResultThenFlag x a f) : Result) = .next t ∧ (x ≠ 15 → (t.reg x).toNat = m) ∧
      (t.reg 15).toNat = n ∧ RegsSameBut [x, 15] s t ∧ OnlyChanges [.regs] s t := by
  obtain ⟨t, ht, hres, hflag, hframe⟩ := s.next_setResultThenFlag x a f
  exact ⟨t, ht, fun hx => by rw [hres hx, ha], by rw [hflag, hf], hframe⟩

/-- The same for a result known by its bits, with the flag cleared. -/
theorem State.next_setResultThenFlag_getLsbD (s : State) (x : RegIdx) {a : Byte} {g : Nat → Bool}
    (ha : ∀ k, a.getLsbD k = g k) :
    ∃ t, (.next (s.setResultThenFlag x a 0) : Result) = .next t ∧ t.reg 15 = 0 ∧
      (x ≠ 15 → ∀ k, (t.reg x).getLsbD k = g k) ∧ RegsSameBut [x, 15] s t ∧ OnlyChanges [.regs] s t := by
  obtain ⟨t, ht, hres, hflag, hframe⟩ := s.next_setResultThenFlag x a 0
  exact ⟨t, ht, hflag, fun hx k => by rw [hres hx, ha], hframe⟩

/-! The difference over the integers (R160). -/

/-- The difference modulo 256: exact without a borrow, 256 more with one. -/
theorem subBytes_toNat_eq_sub_add (a b : Byte) :
    ((subBytes a b).toNat : Int) = a.toNat - b.toNat + if b.toNat ≤ a.toNat then 0 else 256 := by
  have ha := a.isLt
  have hb := b.isLt
  rw [subBytes_toNat]
  split <;> omega

/-- A difference with its no-borrow flag, for either order of the operands. -/
theorem State.next_setResultThenFlag_subBytes (s : State) (x : RegIdx) (a b : Byte) :
    ∃ t, (.next (s.setResultThenFlag x (subBytes a b) (noBorrowFlag a b)) : Result) = .next t ∧
      (x ≠ 15 → ((t.reg x).toNat : Int) = a.toNat - b.toNat + if b.toNat ≤ a.toNat then 0 else 256) ∧
      ((t.reg 15).toNat = if b.toNat ≤ a.toNat then 1 else 0) ∧ RegsSameBut [x, 15] s t ∧ OnlyChanges [.regs] s t := by
  obtain ⟨t, ht, hres, hflag, hframe⟩ := s.next_setResultThenFlag x (subBytes a b) (noBorrowFlag a b)
  refine ⟨t, ht, fun hx => ?_, ?_, hframe⟩
  · rw [hres hx, subBytes_toNat_eq_sub_add]
  · rw [hflag, noBorrowFlag_toNat]

/-! The source of a shift (R158, R159). -/

/-- The byte that SHIFT_SRC_Y names is the source, in both settings. -/
theorem eq_shiftSource {s : State} {x y : RegIdx} {src : Byte} (hy : s.quirks.shiftSrcY = true → src = s.reg y)
    (hx : s.quirks.shiftSrcY = false → src = s.reg x) : src = shiftSource s x y := by
  unfold shiftSource
  split
  · exact hy ‹_›
  · exact hx (Bool.eq_false_of_not_eq_true ‹_›)

/-! The instructions. -/

/-- Settles O32: the word is the encoding of LD, and the instruction is one register write, with no write of the flag. -/
theorem ldRegCopiesWithoutFlag : Obligations.LdRegCopiesWithoutFlag := by
  refine fun x y => ⟨decodeWord_encodeWord (.ldReg x y), fun s => ⟨s.setReg x (s.reg y), rfl, ?_, ?_, ?_⟩⟩
  · exact s.reg_setReg_self x _
  · exact s.setReg_regsSameBut x _
  · exact s.setReg_onlyChanges x _

/-- Settles O33: each operation on bytes acts bit by bit, and the flag written after it is 0. -/
theorem logicOpsClearFlag : Obligations.LogicOpsClearFlag := by
  refine fun x y => ⟨decodeWord_encodeWord (.orReg x y), decodeWord_encodeWord (.andReg x y),
    decodeWord_encodeWord (.xorReg x y), fun s => ⟨?_, ?_, ?_⟩⟩
  · exact s.next_setResultThenFlag_getLsbD x fun _ => BitVec.getLsbD_or
  · exact s.next_setResultThenFlag_getLsbD x fun _ => BitVec.getLsbD_and
  · exact s.next_setResultThenFlag_getLsbD x fun _ => BitVec.getLsbD_xor

/-- Settles O34: the result is the byte sum, the flag written after it the carry of the unmodular sum. -/
theorem addRegSetsCarry : Obligations.AddRegSetsCarry :=
  fun x y => ⟨decodeWord_encodeWord (.addReg x y),
    fun s => s.next_setResultThenFlag_toNat x (addBytes_toNat _ _) (carryFlag_toNat _ _)⟩

/-- Settles O35: both are a difference with its no-borrow flag, SUBN with the operands exchanged. -/
theorem subtractionsSetNoBorrow : Obligations.SubtractionsSetNoBorrow :=
  fun x y => ⟨decodeWord_encodeWord (.subReg x y), decodeWord_encodeWord (.subnReg x y),
    fun s => ⟨s.next_setResultThenFlag_subBytes x (s.reg x) (s.reg y),
      s.next_setResultThenFlag_subBytes x (s.reg y) (s.reg x)⟩⟩

/-- Settles O36: half the source and its bit 0, the source being the register that the quirk names. -/
theorem shrShiftsRightByQuirk : Obligations.ShrShiftsRightByQuirk := by
  refine fun x y => ⟨decodeWord_encodeWord (.shrReg x y), fun s src hy hx => ?_⟩
  rw [eq_shiftSource hy hx]
  exact s.next_setResultThenFlag_toNat x (shiftRightOne_toNat _) (shiftedOutRight_toNat _)

/-- Settles O37: twice the source modulo 256 and its bit 7, the source being the register that the quirk names. -/
theorem shlShiftsLeftByQuirk : Obligations.ShlShiftsLeftByQuirk := by
  refine fun x y => ⟨decodeWord_encodeWord (.shlReg x y), fun s src hy hx => ?_⟩
  rw [eq_shiftSource hy hx]
  exact s.next_setResultThenFlag_toNat x (shiftLeftOne_toNat _) (shiftedOutLeft_toNat _)

end Sys2Proof.Machine
end

section
/-! SUPPORT. The index register (spec/44_index.md R170 to R172): each instruction is one write of I, which reduces modulo
4096, and that reduction leaves an `nnn` field and a byte times 5 as they are. -/

namespace Sys2Proof.Machine

/-- An address below 4096 reaches I unreduced. -/
theorem State.setI_toNat_of_lt (s : State) {a : Nat} (ha : a < 4096) : (s.setI a).i.toNat = a :=
  (s.setI_toNat a).trans (Nat.mod_eq_of_lt ha)

/-- The greatest byte times 5 is 1275, inside memory, so no register value needs a mask. -/
theorem glyphAddress_lt (b : Byte) : b.toNat * Config.glyphBytes < 4096 := by
  have hb : b.toNat < 256 := b.isLt
  unfold Config.glyphBytes
  omega

/-- Settles O38: the word is the encoding of LD I, and the 12-bit value reaches I unreduced. -/
theorem ldISetsIndex : Obligations.LdISetsIndex :=
  fun nnn => ⟨decodeWord_encodeWord (.ldI nnn), fun s => ⟨_, rfl, s.setI_toNat_of_lt nnn.isLt, s.setI_onlyChanges _⟩⟩

/-- Settles O39: the word is the encoding of ADD I, and a write of I reduces the sum modulo 4096 and writes no register. -/
theorem addIWrapsWithoutFlag : Obligations.AddIWrapsWithoutFlag :=
  fun x => ⟨decodeWord_encodeWord (.addI x), fun s => ⟨_, rfl, s.setI_toNat _, s.setI_onlyChanges _⟩⟩

/-- Settles O40: the word is the encoding of LD F, and five times a byte reaches I unreduced. -/
theorem ldFPointsAtGlyph : Obligations.LdFPointsAtGlyph :=
  fun x => ⟨decodeWord_encodeWord (.ldF x),
    fun s => ⟨_, rfl, s.setI_toNat_of_lt (glyphAddress_lt (s.reg x)), s.setI_onlyChanges _⟩⟩

end Sys2Proof.Machine
end

section
/-! SUPPORT. Random (spec/45_random.md R180, R181): RND counts one draw and writes one register; the counter of draws is
a changed piece of RND alone. -/

namespace Sys2Proof.Machine

/-- R180's mask: what has been ANDed with `kk` has a 0 wherever `kk` has one. -/
theorem and_mask_and_not_mask (r kk : Byte) : (r &&& kk) &&& ~~~kk = 0 := by
  rw [BitVec.and_assoc, BitVec.and_not_self]
  exact BitVec.and_zero

theorem draws_mem_changedParts (i : Instr) : .draws ∈ changedParts i ↔ ∃ x kk, i = .rnd x kk := by
  cases i <;> simp [changedParts]

section
variable (r : Byte) (x : RegIdx) (kk : Byte) (s : State)

/-- RND writes the answered byte, whichever it is, AND its immediate. -/
theorem rndWith_reg_self : (rndWith r x kk s).reg x = r &&& kk := s.countDraw.reg_setReg_self x _

/-- RND writes no flag: every register but its destination stays. -/
theorem rndWith_regsSameBut : RegsSameBut [x] s (rndWith r x kk s) := s.countDraw.setReg_regsSameBut x _

theorem rndWith_draws : (rndWith r x kk s).draws = s.draws + 1 := s.countDraw.setReg_draws x _

theorem rndWith_onlyChanges : OnlyChanges [.regs, .draws] s (rndWith r x kk s) :=
  (s.countDraw_onlyChanges.append (s.countDraw.setReg_onlyChanges x _)).mono (by decide)

end

/-- R181: an instruction other than RND draws no byte. -/
theorem exec_draws_of_ne_rnd {i : Instr} {s t : State} (h : exec i s = .next t) (hne : ∀ x kk, i ≠ .rnd x kk) :
    t.draws = s.draws := by
  refine exec_onlyChanges h .draws ?_
  rw [draws_mem_changedParts]
  rintro ⟨x, kk, hi⟩
  exact hne x kk hi

/-- Settles O41: the word is the encoding of RND, which writes the answered byte AND kk, whichever byte the source
answers, and is the one instruction with the counter of draws among its changed pieces. -/
theorem rndDrawsOneByte : Obligations.RndDrawsOneByte := by
  refine ⟨fun x kk => ⟨decodeWord_encodeWord (.rnd x kk), fun s => ?_⟩, fun _ _ _ => exec_draws_of_ne_rnd⟩
  have hreg := rndWith_reg_self s.nextRandom x kk s
  refine ⟨rndWith s.nextRandom x kk s, rfl, hreg, ?_, ?_, ?_, ?_⟩
  · rw [hreg, and_mask_and_not_mask]
  · exact rndWith_draws _ x kk s
  · exact rndWith_regsSameBut _ x kk s
  · exact rndWith_onlyChanges _ x kk s

end Sys2Proof.Machine
end

section
/-! SUPPORT. Clear screen and sprite blit (spec/46_display.md R185 to R189): DRW as the XOR of the display with its placed
mask, with the flag of a shared pixel, and two such blits one after the other. -/

namespace Sys2Proof.Machine

/-- Settles O42: the word is the encoding of CLS, and the display it installs has no pixel set. -/
theorem clsClearsEveryPixel : Obligations.ClsClearsEveryPixel :=
  ⟨decodeWord_encodeWord .cls,
    fun s => ⟨s.setDisp Display.clear, rfl, fun p _ => Display.pixel_clear p, s.setDisp_onlyChanges _⟩⟩

/-! The rows of a sprite as one XOR (R188): a height below 16 toggles no pixel twice. -/

theorem spritePixels_lt (s : State) (ox oy n : Nat) : ∀ p ∈ spritePixels s ox oy n, p < 2048 := by
  intro p hp
  obtain ⟨_, _, _, _, _, hlands⟩ := mem_spritePixels.mp hp
  exact hlands.lt

section
variable (s : State) (ox oy : Nat) {n : Nat} (hn : n < 16)
include hn

theorem pixel_blitRows {p : Nat} (hp : p < 2048) :
    Display.pixel (blitRows s ox oy n).1 p = true ↔ ¬ (Display.pixel s.disp p = true ↔ PlacedMask s ox oy n p) := by
  obtain ⟨htoggled, _⟩ := foldl_togglePixel _ (s.disp, false) (spritePixels_nodup s ox oy hn) (spritePixels_lt s ox oy n)
  rw [blitRows_eq, htoggled p hp, Bool.xor_iff_ne, ne_eq, Bool.eq_iff_iff, decide_eq_true_iff, mem_spritePixels]

theorem blitRows_collision :
    (blitRows s ox oy n).2 = true ↔ ∃ p, p < 2048 ∧ Display.pixel s.disp p = true ∧ PlacedMask s ox oy n p := by
  obtain ⟨_, hcollision⟩ :=
    foldl_togglePixel _ (s.disp, false) (spritePixels_nodup s ox oy hn) (spritePixels_lt s ox oy n)
  rw [blitRows_eq, hcollision]
  constructor
  · rintro (h | ⟨p, hp, hset⟩)
    · exact absurd h Bool.false_ne_true
    · exact ⟨p, spritePixels_lt s ox oy n p hp, hset, mem_spritePixels.mp hp⟩
  · rintro ⟨p, _, hset, hmask⟩
    exact .inr ⟨p, mem_spritePixels.mpr hmask, hset⟩

end

/-! DRW as such a blit. -/

theorem flagOf_eq_one_iff (c : Bool) : flagOf c = 1 ↔ c = true := by cases c <;> decide

theorem flagOf_eq_zero_or_one (c : Bool) : flagOf c = 0 ∨ flagOf c = 1 := by cases c <;> decide

/-- From `s` to `t` the pixels of the mask `M` are inverted, V[15] tells whether one of them was set, and nothing else
changes (R187, R188). -/
structure XorsMask (M : Nat → Prop) (s t : State) : Prop where
  pixel : ∀ p, p < 2048 → (Display.pixel t.disp p = true ↔ ¬ (Display.pixel s.disp p = true ↔ M p))
  flag : t.reg 15 = 1 ↔ ∃ p, p < 2048 ∧ Display.pixel s.disp p = true ∧ M p
  flag_bit : t.reg 15 = 0 ∨ t.reg 15 = 1
  regs : RegsSameBut [15] s t
  frame : OnlyChanges [.regs, .disp] s t

/-- The placed mask of `Dxyn` in the state `s`, its origin reduced into the screen (D19, log 21). -/
abbrev drwMask (x y : RegIdx) (n : Nibble) (s : State) : Nat → Prop :=
  PlacedMask s ((s.reg x).toNat % 64) ((s.reg y).toNat % 32) n.toNat

theorem exec_drw_xorsMask (x y : RegIdx) (n : Nibble) (s : State) :
    ∃ t, exec (.drw x y n) s = .next t ∧ XorsMask (drwMask x y n s) s t := by
  refine ⟨_, rfl, fun p hp => ?_, ?_, ?_, ?_, ?_⟩
  · exact pixel_blitRows s _ _ n.isLt hp
  · rw [State.setFlag, State.reg_setReg_self, flagOf_eq_one_iff]
    exact blitRows_collision s _ _ n.isLt
  · rw [State.setFlag, State.reg_setReg_self]
    exact flagOf_eq_zero_or_one _
  · exact State.setReg_regsSameBut (s.setDisp _) 15 _
  · exact exec_onlyChanges (i := .drw x y n) rfl |>.mono (by simp [changedParts])

/-- Settles O43: the word is the encoding of DRW, and the origin is read before the flag is written, so every `x` and `y`,
15 among them, blits the placed mask of the state before. -/
theorem drwXorsPlacedMask : Obligations.DrwXorsPlacedMask := by
  refine fun x y n => ⟨decodeWord_encodeWord (.drw x y n), fun s => ?_⟩
  obtain ⟨t, ht, hpixel, hflag, hbit, hregs, hframe⟩ := exec_drw_xorsMask x y n s
  exact ⟨t, ht, hpixel, hflag, hbit, hregs, hframe⟩

/-! Two blits of one mask. -/

section
variable {M : Nat → Prop} {s t u : State}

/-- XOR is its own inverse. -/
theorem XorsMask.disp_eq (hst : XorsMask M s t) (htu : XorsMask M t u) : u.disp = s.disp := by
  refine Display.ext_pixel fun p hp => Bool.eq_iff_iff.mpr ?_
  rw [htu.pixel p hp, hst.pixel p hp]
  tauto

/-- A pixel of the mask is set after the first blit exactly when it was not set before. -/
theorem XorsMask.flag_second (hst : XorsMask M s t) (htu : XorsMask M t u) :
    u.reg 15 = 1 ↔ ∃ p, p < 2048 ∧ Display.pixel s.disp p = false ∧ M p := by
  rw [htu.flag]
  refine exists_congr fun p => and_congr_right fun hp => and_congr_left fun hmask => ?_
  rw [hst.pixel p hp, iff_true_right hmask, Bool.not_eq_true]

theorem XorsMask.flag_eq_zero (hst : XorsMask M s t)
    (hclear : ∀ p, p < 2048 → M p → Display.pixel s.disp p = false) : t.reg 15 = 0 := by
  refine hst.flag_bit.resolve_right fun hone => ?_
  obtain ⟨p, hp, hset, hmask⟩ := hst.flag.mp hone
  exact Bool.false_ne_true ((hclear p hp hmask).symm.trans hset)

end

/-- The placed mask is read from memory, I and the quirks, which a blit leaves alone. -/
theorem placedMask_eq_of_onlyChanges {s t : State} (h : OnlyChanges [.regs, .disp] s t) (ox oy n : Nat) :
    PlacedMask t ox oy n = PlacedMask s ox oy n := by
  have hi : t.i = s.i := h .index (by decide)
  have hquirks : t.quirks = s.quirks := h .quirks (by decide)
  have hmem : ∀ a, t.memRead a = s.memRead a := h .mem (by decide)
  funext p
  simp only [PlacedMask, hi, hquirks, hmem]

/-- The origin of a second draw is that of the first unless it is read from V[15], which the first one writes. -/
theorem XorsMask.drwMask_eq {M : Nat → Prop} {s t : State} (h : XorsMask M s t) {x y : RegIdx} (hx : x ≠ 15)
    (hy : y ≠ 15) (n : Nibble) : drwMask x y n t = drwMask x y n s := by
  rw [drwMask, h.regs x (by simpa using hx), h.regs y (by simpa using hy)]
  exact placedMask_eq_of_onlyChanges h.frame _ _ _

/-- Settles O44: the second draw blits the same mask, so it undoes the first, and its flag tells whether a pixel of the
mask was 0 before (log 27); where none was set before, that is whether the mask has a visible pixel. -/
theorem drawingTwiceRestores : Obligations.DrawingTwiceRestores := by
  intro x y n s hx hy
  obtain ⟨t, ht, hst⟩ := exec_drw_xorsMask x y n s
  obtain ⟨u, hu, htu⟩ := exec_drw_xorsMask x y n t
  rw [hst.drwMask_eq hx hy] at htu
  have hsecond := hst.flag_second htu
  refine ⟨t, u, ht, hu, hst.disp_eq htu, hsecond, fun hclear => ⟨hst.flag_eq_zero hclear, ?_⟩⟩
  rw [hsecond]
  exact exists_congr fun p => and_congr_right fun hp => and_iff_right_of_imp (hclear p hp)

end Sys2Proof.Machine
end

section
/-! SUPPORT. The keypad (spec/47_keypad.md R200 to R204): the two skips are on one key line, and LD Vx, K is a scan of the
sixteen. -/

namespace Sys2Proof.Machine

/-- A skip on a condition that must not hold: the two places of pc change sides. -/
theorem State.skipIf_not_toNat (s : State) (c : Bool) :
    (s.skipIf (!c)).pc.toNat = if c then s.pc.toNat else (s.pc.toNat + 2) % 4096 := by
  cases c
  · exact s.skipIf_toNat true
  · exact s.skipIf_toNat false

/-- Settles O45: the words are the encodings of SKP and SKNP, and a skip, taken or not, changes pc alone. -/
theorem skipOnKey : Obligations.SkipOnKey := by
  refine fun x => ⟨decodeWord_encodeWord (.skp x), decodeWord_encodeWord (.sknp x), fun s => ⟨?_, ?_⟩⟩
  · exact ⟨_, rfl, s.skipIf_onlyChanges _, s.skipIf_toNat _⟩
  · exact ⟨_, rfl, s.skipIf_onlyChanges _, s.skipIf_not_toNat _⟩

/-- LD Vx, K with a line active takes the lowest. -/
theorem execLdVxK_eq_takeKey {s : State} (x : RegIdx) {k : Nat} (hk : k < 16) (hact : s.keyActive k = true)
    (hlow : ∀ j, j < k → s.keyActive j = false) : execLdVxK x s = .next (s.setReg x (BitVec.ofNat 8 k)) := by
  rw [execLdVxK, scanKeys_eq_some.mpr ⟨hk, hact, hlow⟩]

/-- LD Vx, K with no line active enters the wait. -/
theorem execLdVxK_eq_wait {s : State} (x : RegIdx) (hkeys : ∀ k, k < 16 → s.keyActive k = false) :
    execLdVxK x s = .next (s.setWait (some x)) := by
  rw [execLdVxK, scanKeys_eq_none.mpr hkeys]

/-- Settles O46: the word is the encoding of LD, the scan answers the lowest active line, which fits the register, and
each of the two outcomes is one update. -/
theorem ldVxKTakesKeyOrWaits : Obligations.LdVxKTakesKeyOrWaits := by
  refine fun x => ⟨decodeWord_encodeWord (.ldVxK x), fun s => ⟨fun k hk hact hlow => ?_, fun hkeys => ?_⟩⟩
  · refine ⟨_, execLdVxK_eq_takeKey x hk hact hlow, ?_, s.setReg_regsSameBut x _, s.setReg_onlyChanges x _⟩
    rw [State.reg_setReg_self, BitVec.toNat_ofNat, Nat.mod_eq_of_lt (by omega)]
  · exact ⟨_, execLdVxK_eq_wait x hkeys, s.setWait_wait _, s.setWait_onlyChanges _⟩

end Sys2Proof.Machine
end

section
/-! SUPPORT. The timers (spec/48_timers.md R210 to R212): each instruction is one update, of a register or of a timer. -/

namespace Sys2Proof.Machine

/-- Settles O47: the word is the encoding of LD, and the instruction is one register write. -/
theorem ldVxDtReadsDelayTimer : Obligations.LdVxDtReadsDelayTimer :=
  fun x => ⟨decodeWord_encodeWord (.ldVxDt x), fun s => ⟨s.setReg x s.dt, rfl, s.reg_setReg_self x _,
    s.setReg_regsSameBut x _, s.setReg_onlyChanges x _⟩⟩

/-- The tone sounds exactly when the sound timer that the host reads is not 0 (R254). -/
theorem toneOn_iff (s : State) : toneOn s = true ↔ readSound s ≠ 0 := bne_iff_ne

/-- Settles O48: the words are the encodings of the two loads, each is one write of its timer, and the host's read is of
the timer just written. -/
theorem timerLoadsReplaceTimer : Obligations.TimerLoadsReplaceTimer := by
  refine fun x => ⟨decodeWord_encodeWord (.ldDtVx x), decodeWord_encodeWord (.ldStVx x), fun s => ⟨?_, ?_⟩⟩
  · exact ⟨s.setDt (s.reg x), rfl, s.setDt_dt _, s.setDt_onlyChanges _⟩
  · have hst : (s.setSt (s.reg x)).st = s.reg x := s.setSt_st _
    exact ⟨s.setSt (s.reg x), rfl, hst, hst, toneOn_iff _, s.setSt_onlyChanges _⟩

end Sys2Proof.Machine
end

section
/-! SUPPORT. Memory transfer (spec/49_memio.md R220 to R223): what a byte run of digits or of registers reads back as, and
what the block load leaves in the registers. -/

namespace Sys2Proof.Machine

/-! The three digits. -/

/-- Each decimal digit of a byte fits a byte. -/
theorem bcdDigits_map_toNat (b : Byte) :
    (bcdDigits b).map BitVec.toNat = [b.toNat / 100, b.toNat / 10 % 10, b.toNat % 10] := by
  have hb : b.toNat < 256 := b.isLt
  simp only [bcdDigits, List.map_cons, List.map_nil, BitVec.toNat_ofNat, List.cons.injEq, and_true]
  omega

/-- The number read at `a + k` after the digits of a byte are stored at `a`. -/
theorem State.memRead_storeDigits_toNat {s : State} (hwf : s.mem.wf = true) (a : Nat) (b : Byte) (k : Nat) (hk : k < 3) :
    ((s.storeBytes a (bcdDigits b)).memRead (a + k)).toNat = [b.toNat / 100, b.toNat / 10 % 10, b.toNat % 10][k] := by
  have hlen : (bcdDigits b).length ≤ 4096 := by simp [bcdDigits]
  rw [State.memRead_storeBytes (bcdDigits b) hwf a k hk hlen]
  simp only [← bcdDigits_map_toNat]
  exact (List.getElem_map BitVec.toNat).symm

/-- Settles O50: the word is the encoding of LD B, and the instruction stores the three digits as a byte run at I. -/
theorem ldBStoresDigits : Obligations.LdBStoresDigits := by
  refine fun x => ⟨decodeWord_encodeWord (.ldB x), fun s hwf => ?_⟩
  have hdigit := State.memRead_storeDigits_toNat hwf s.i.toNat (s.reg x)
  refine ⟨_, rfl, hdigit 0 (by decide), hdigit 1 (by decide), hdigit 2 (by decide), fun a h0 h1 h2 => ?_,
    s.storeBytes_onlyChanges _ _⟩
  refine State.memRead_storeBytes_outside (bcdDigits (s.reg x)) hwf _ a fun k (hk : k < 3) => ?_
  obtain rfl | rfl | rfl : k = 0 ∨ k = 1 ∨ k = 2 := by omega
  · exact h0
  · exact h1
  · exact h2

/-! The register block in memory. -/

section
variable {s : State} (hwf : s.mem.wf = true) (x : RegIdx)
include hwf

/-- At most 16 registers are stored, so no byte of the block falls on another. -/
theorem State.memRead_storeRegs {k : RegIdx} (hk : k.toNat ≤ x.toNat) :
    (s.storeBytes s.i.toNat ((regRange x).map s.reg)).memRead (s.i.toNat + k.toNat) = s.reg k := by
  have hx : x.toNat < 16 := x.isLt
  have hlen : ((regRange x).map s.reg).length = x.toNat + 1 := by rw [List.length_map, regRange_length]
  rw [State.memRead_storeBytes _ hwf s.i.toNat k.toNat (by omega) (by omega), List.getElem_map, regRange_getElem,
    BitVec.ofNat_toNat, BitVec.setWidth_eq]

theorem State.memRead_storeRegs_outside {a : Nat} (ha : ∀ k, k ≤ x.toNat → a % 4096 ≠ (s.i.toNat + k) % 4096) :
    (s.storeBytes s.i.toNat ((regRange x).map s.reg)).memRead a = s.memRead a := by
  refine State.memRead_storeBytes_outside _ hwf _ a fun k hk => ha k ?_
  rw [List.length_map, regRange_length] at hk
  exact Nat.le_of_lt_succ hk

end

/-- Settles O51: the word is the encoding of LD, the registers are a byte run at I, and the increment of I after it
touches no memory. -/
theorem stRegsStoresRange : Obligations.StRegsStoresRange := by
  refine fun x => ⟨decodeWord_encodeWord (.stRegs x), fun s hwf => ⟨_, rfl, fun k hk => ?_, fun a ha => ?_, ?_, ?_⟩⟩
  · rw [State.bumpI_memRead, State.memRead_storeRegs hwf x hk]
  · rw [State.bumpI_memRead, State.memRead_storeRegs_outside hwf x ha]
  · rw [State.bumpI_toNat, State.storeBytes_quirks, State.storeBytes_i]
  · exact (s.storeBytes_onlyChanges _ _).append (State.bumpI_onlyChanges _ _)

/-- Settles O52: the word is the encoding of LD, every byte is read at the I of the state before, and the increment of I
touches no register. -/
theorem ldRegsLoadsRange : Obligations.LdRegsLoadsRange := by
  refine fun x => ⟨decodeWord_encodeWord (.ldRegs x), fun s => ⟨_, rfl, fun k hk => ?_, fun k hk => ?_, ?_, ?_⟩⟩
  · rw [State.bumpI_reg, loadRegsFrom_reg, if_pos (mem_regRange.mpr hk)]
  · rw [State.bumpI_reg, loadRegsFrom_regRange_reg s (Nat.not_le.mpr hk)]
  · rw [State.bumpI_toNat, loadRegsFrom_quirks, loadRegsFrom_i]
  · exact (loadRegsFrom_onlyChanges s _).append (State.bumpI_onlyChanges _ _)

/-- Settles O53: the load reads, byte by byte, what O51 says the store has left there. -/
theorem storeThenLoadRestoresRegisters : Obligations.StoreThenLoadRestoresRegisters := by
  intro x s t u hwf hst hi hkept
  obtain ⟨_, hstore⟩ := stRegsStoresRange x
  obtain ⟨_, hst', hstored, _⟩ := hstore s hwf
  cases hst.symm.trans hst'
  obtain ⟨_, hload⟩ := ldRegsLoadsRange x
  obtain ⟨w, huw, hloaded, _⟩ := hload u
  refine ⟨w, huw, fun k hk => ?_⟩
  calc w.reg k = u.memRead (s.i.toNat + k.toNat) := by rw [hloaded k hk, hi]
    _ = t.memRead (s.i.toNat + k.toNat) := hkept k.toNat hk
    _ = s.reg k := hstored k hk

end Sys2Proof.Machine
end

section
/-! SUPPORT. Faults (spec/60_exceptions.md R230 to R235, R250): which instructions can answer something other than a next
state, and what a step answers with SP in 0..16. -/

namespace Sys2Proof.Machine

/-- AN INSTRUCTION COMPLETES unless it is RET or CALL, and those by the value of SP. -/
theorem exec_outcome (i : Instr) (s : State) :
    (∃ t, exec i s = .next t) ∨
    (i = .ret ∧ s.sp.toNat = 0 ∧ exec i s = .fault .stackUnderflow) ∨
    ((∃ nnn, i = .call nnn) ∧ s.sp.toNat = 16 ∧ exec i s = .fault .stackOverflow) ∨
    (16 < s.sp.toNat ∧ exec i s = .refused .stackPointerOutOfRange) := by
  cases i with
  | ret =>
    obtain ⟨hsp, h⟩ | ⟨_, _, h⟩ | ⟨hsp, h⟩ := execRet_cases s
    · exact .inr (.inl ⟨rfl, hsp, h⟩)
    · exact .inl ⟨_, h⟩
    · exact .inr (.inr (.inr ⟨hsp, h⟩))
  | call nnn =>
    obtain ⟨hsp, h⟩ | ⟨_, h⟩ | ⟨hsp, h⟩ := execCall_cases nnn s
    · exact .inr (.inr (.inl ⟨⟨nnn, rfl⟩, hsp, h⟩))
    · exact .inl ⟨_, h⟩
    · exact .inr (.inr (.inr ⟨hsp, h⟩))
  | ldVxK x =>
    obtain ⟨_, h⟩ | ⟨_, _, _, _, h⟩ := execLdVxK_cases x s
    · exact .inl ⟨_, h⟩
    · exact .inl ⟨_, h⟩
  | _ => exact .inl ⟨_, rfl⟩

/-- Settles O9: a faulting instruction is one of the two that `exec_outcome` names, with that instruction's fault. -/
theorem faultsRaisedExactly : Obligations.FaultsRaisedExactly := by
  intro i s
  refine ⟨⟨fun hf => ?_, ?_⟩, ⟨fun hf => ?_, ?_⟩, fun hf => ?_⟩
  · obtain ⟨t, h⟩ | ⟨hi, hsp, _⟩ | ⟨_, _, h⟩ | ⟨_, h⟩ := exec_outcome i s
    · cases h.symm.trans hf
    · exact ⟨hi, hsp⟩
    · cases h.symm.trans hf
    · cases h.symm.trans hf
  · rintro ⟨rfl, hsp⟩
    exact execRet_eq_fault hsp
  · obtain ⟨t, h⟩ | ⟨_, _, h⟩ | ⟨hi, hsp, _⟩ | ⟨_, h⟩ := exec_outcome i s
    · cases h.symm.trans hf
    · cases h.symm.trans hf
    · exact ⟨hi, hsp⟩
    · cases h.symm.trans hf
  · rintro ⟨⟨nnn, rfl⟩, hsp⟩
    exact execCall_eq_fault nnn hsp
  · obtain ⟨t, h⟩ | ⟨_, _, h⟩ | ⟨_, _, h⟩ | ⟨_, h⟩ := exec_outcome i s <;> cases h.symm.trans hf

/-- Settles O10: a re-check of the keypad and an unrecognised word always complete, and an instruction refuses only with
SP above 16. -/
theorem stepAnswersNextOrStackFault : Obligations.StepAnswersNextOrStackFault := by
  intro s hsp
  obtain ⟨x, _, hstep⟩ | ⟨i, _, _, hstep⟩ | ⟨_, _, _, hstep⟩ := step_cases s
  · obtain ⟨_, h⟩ | ⟨_, _, _, _, h⟩ := recheckKeys_cases x s
    · exact .inl ⟨_, hstep.trans h⟩
    · exact .inl ⟨_, hstep.trans h⟩
  · obtain ⟨t, h⟩ | ⟨_, _, h⟩ | ⟨_, _, h⟩ | ⟨hbig, _⟩ := exec_outcome i s.advancePc
    · exact .inl ⟨t, hstep.trans h⟩
    · exact .inr (.inr (hstep.trans h))
    · exact .inr (.inl (hstep.trans h))
    · rw [State.advancePc_sp] at hbig
      omega
  · exact .inl ⟨_, hstep⟩

end Sys2Proof.Machine
end

section
/-! SUPPORT. The host's operations (spec/60_exceptions.md R251, R252; spec/70_reset_and_hazards.md R270, R272): tick,
set_keys, what reset leaves in memory, and an image stored on top of it. -/

namespace Sys2Proof.Machine

/-! Tick and set_keys. -/

theorem tickTimer_toNat (b : Byte) : (tickTimer b).toNat = if 0 < b.toNat then b.toNat - 1 else 0 := by
  have hb : b.toNat < 256 := b.isLt
  rw [tickTimer, BitVec.toNat_ofNat]
  split <;> omega

/-- Settles O54: a tick is one write of each timer. -/
theorem tickDecrementsBothTimers : Obligations.TickDecrementsBothTimers :=
  fun s => ⟨_, rfl, tickTimer_toNat s.dt, tickTimer_toNat s.st,
    (s.setDt_onlyChanges _).append (State.setSt_onlyChanges _ _)⟩

theorem setKeys_onlyChanges (s : State) (k : BitVec 16) : OnlyChanges [.keys] s { s with keys := k } := by
  intro p hp
  cases p with
  | keys => exact absurd (List.mem_singleton_self _) hp
  | regs | stack | mem => exact fun _ => by intros; rfl
  | _ => rfl

/-- Settles O55: set_keys replaces all sixteen lines, which no step changes. -/
theorem setKeysSetsLines : Obligations.SetKeysSetsLines := by
  refine ⟨fun s k => ⟨_, rfl, fun _ _ => rfl, setKeys_onlyChanges s k⟩, fun s t h j _ => ?_⟩
  rw [State.keyActive, State.keyActive, step_keys h]

/-! Reset. -/

/-- Memory after reset is the font table and 0 above it, every address as one that no write has touched. -/
theorem resetState_memRead (s : State) (a : Nat) : (resetState s).memRead a = unlisted (a % 4096) := rfl

theorem resetState_reg (s : State) (r : RegIdx) : (resetState s).reg r = 0 := Vector.getElem_replicate (regIdx_lt r)

theorem resetState_stackSlot (s : State) {k : Nat} (hk : k < 16) : (resetState s).stackSlot k = 0 := by
  rw [State.stackSlot, dif_pos hk]
  exact Vector.getElem_replicate hk

theorem unlisted_of_font_le {a : Nat} (ha : 80 ≤ a) : unlisted a = 0 := List.getD_eq_default font 0 ha

/-- Settles O56: reset builds the reset state afresh around the quirks and the host's channels, and an empty memory list
reads as the font table. -/
theorem resetLeavesResetValues : Obligations.ResetLeavesResetValues := by
  refine fun s => ⟨resetState s, rfl, resetState_reg s, rfl, rfl, rfl, fun _ => resetState_stackSlot s, rfl, rfl,
    fun _ _ => BitVec.getLsbD_zero, fun p _ => Display.pixel_clear p, rfl, rfl, rfl, rfl, rfl, fun a hlo hhi => ?_,
    rfl, rfl⟩
  rw [resetState_memRead, Nat.mod_eq_of_lt hhi, unlisted_of_font_le hlo]

/-! Load. -/

/-- Settles O57: load by the length of the image; an image of at most 3584 bytes is a byte run at 0x200 that ends inside
memory. -/
theorem loadInstallsImageOrFails : Obligations.LoadInstallsImageOrFails := by
  intro s image
  obtain ⟨hlong, hload⟩ | ⟨hfits, hload⟩ := hostLoad_cases image s
  · exact ⟨fun _ => hload, fun hle => by omega⟩
  · have hwf : (resetState s).mem.wf = true := reset_mem_wf
    refine ⟨fun hlt => by omega, fun _ => ⟨resetState s, _, rfl, hload, fun k hk => ?_, fun a ha hout => ?_, ?_⟩⟩
    · exact State.memRead_storeBytes image hwf entry k hk (by omega)
    · refine State.memRead_storeBytes_outside image hwf entry a fun k hk => ?_
      rw [entry]
      omega
    · exact (resetState s).storeBytes_onlyChanges entry image

end Sys2Proof.Machine
end

section
/-! SUPPORT. Runs (spec/60_exceptions.md R262): what an event of a run from a state that meets the invariants can do, the
three ways such a run comes out, a run in two parts, and the fixed point that the suggested end is (D23). -/

namespace Sys2Proof.Machine

/-- An event answers a next state, or it is a load that fails, or it is a step that faults. -/
theorem act_outcome {s : State} (h : MachineInv s) (e : Event) :
    (∃ t, act e s = .next t) ∨ act e s = .fault .imageTooLarge ∨
    (∃ f, act e s = .fault f ∧ step s = .fault f ∧ (f = .stackOverflow ∨ f = .stackUnderflow)) := by
  cases e with
  | step =>
    obtain hnext | hover | hunder := stepAnswersNextOrStackFault s h.sp_le
    · exact .inl hnext
    · exact .inr (.inr ⟨_, hover, hover, .inl rfl⟩)
    · exact .inr (.inr ⟨_, hunder, hunder, .inr rfl⟩)
  | load image =>
    obtain ⟨_, hload⟩ | ⟨_, hload⟩ := hostLoad_cases image s
    · exact .inr (.inl hload)
    · exact .inl ⟨_, hload⟩
  | reset | tick | setKeys k => exact .inl ⟨_, rfl⟩

section
variable {endOfRun : EndOfRun} {s : State} {e : Event} (hend : endOfRun s = false)
include hend

/-- A load that fails leaves the run where it was. -/
theorem runEvents_imageTooLarge (he : act e s = .fault .imageTooLarge) (es : List Event) :
    runEvents endOfRun (e :: es) s = runEvents endOfRun es s := by
  simp [runEvents, hend, he]

/-- Any other fault ends the run. -/
theorem runEvents_fault {f : Fault} (he : act e s = .fault f) (hf : f ≠ .imageTooLarge) (es : List Event) :
    runEvents endOfRun (e :: es) s = .faulted f s := by
  cases f with
  | imageTooLarge => exact absurd rfl hf
  | stackOverflow | stackUnderflow => simp [runEvents, hend, he]

/-- An event without a meaning ends the run. -/
theorem runEvents_refused {r : Refusal} (he : act e s = .refused r) (es : List Event) :
    runEvents endOfRun (e :: es) s = .refused r s := by
  simp [runEvents, hend, he]

end

/-- A run that ends as R262 says, in a state that meets the invariants: END_OF_RUN holds there, or a step faults there, or
the host has stopped. -/
def EndsAsListed (endOfRun : EndOfRun) (o : RunOutcome) : Prop :=
  (∃ t, o = .ended t ∧ MachineInv t ∧ endOfRun t = true) ∨
  (∃ f t, o = .faulted f t ∧ MachineInv t ∧ endOfRun t = false ∧ step t = .fault f ∧
    (f = .stackOverflow ∨ f = .stackUnderflow)) ∨
  (∃ t, o = .stopped t ∧ MachineInv t ∧ endOfRun t = false)

/-- EVERY RUN FROM A STATE THAT MEETS THE INVARIANTS ENDS AS LISTED: by induction on the events. -/
theorem runEvents_endsAsListed (endOfRun : EndOfRun) (es : List Event) {s : State} (h : MachineInv s) :
    EndsAsListed endOfRun (runEvents endOfRun es s) := by
  induction es generalizing s with
  | nil =>
    cases hend : endOfRun s with
    | true => exact .inl ⟨s, runEvents_ended hend [], h, hend⟩
    | false => exact .inr (.inr ⟨s, runEvents_nil hend, h, hend⟩)
  | cons e es ih =>
    cases hend : endOfRun s with
    | true => exact .inl ⟨s, runEvents_ended hend _, h, hend⟩
    | false =>
      obtain ⟨t, he⟩ | he | ⟨f, he, hstep, hf⟩ := act_outcome h e
      · rw [runEvents_next hend he]
        exact ih (act_machineInv h he)
      · rw [runEvents_imageTooLarge hend he]
        exact ih h
      · have hne : f ≠ .imageTooLarge := by rintro rfl; simp at hf
        exact .inr (.inl ⟨f, s, runEvents_fault hend he hne es, h, hend, hstep, hf⟩)

/-- What is left of a run after its first events: it goes on where the host has stopped, and is over otherwise. -/
def RunOutcome.resume (endOfRun : EndOfRun) (later : List Event) : RunOutcome → RunOutcome
  | .stopped t => runEvents endOfRun later t
  | o => o

/-- A RUN IS ITS FIRST EVENTS AND THEN, IF IT IS NOT OVER, THE REST, from any state: by induction on the first events. -/
theorem runEvents_append (endOfRun : EndOfRun) (es later : List Event) (s : State) :
    runEvents endOfRun (es ++ later) s = (runEvents endOfRun es s).resume endOfRun later := by
  induction es generalizing s with
  | nil =>
    cases hend : endOfRun s with
    | true => rw [runEvents_ended hend, runEvents_ended hend]; rfl
    | false => rw [runEvents_nil hend]; rfl
  | cons e es ih =>
    rw [List.cons_append]
    cases hend : endOfRun s with
    | true => rw [runEvents_ended hend, runEvents_ended hend]; rfl
    | false =>
      cases he : act e s with
      | next t => rw [runEvents_next hend he, runEvents_next hend he, ih]
      | refused r => rw [runEvents_refused hend he, runEvents_refused hend he]; rfl
      | fault f =>
        by_cases hf : f = .imageTooLarge
        · subst hf
          rw [runEvents_imageTooLarge hend he, runEvents_imageTooLarge hend he, ih]
        · rw [runEvents_fault hend he hf, runEvents_fault hend he hf]; rfl

/-- Settles O58: the ways a run comes out under the invariants, and its composition, which needs none. -/
theorem runEndsOnlyByEndFaultOrHost : Obligations.RunEndsOnlyByEndFaultOrHost :=
  fun endOfRun es s h => ⟨runEvents_endsAsListed endOfRun es h, fun later => runEvents_append endOfRun es later s⟩

/-! The suggested end. -/

/-- A jump to its own address undoes the advance of its fetch. -/
theorem State.setPc_advancePc_self (s : State) (hpc : s.pc.toNat < 4096) : s.advancePc.setPc s.pc.toNat = s := by
  have hback : (s.setPc s.pc.toNat).pc = s.pc := BitVec.eq_of_toNat_eq (s.setPc_toNat_of_lt hpc)
  exact congrArg (fun p => { s with pc := p }) hback

theorem step_eq_self_of_selfJump {s : State} (h : selfJump s = true) : step s = .next s := by
  obtain ⟨hwait, nnn, hdec, hpc⟩ := selfJump_iff.mp h
  have hlt : s.pc.toNat < 4096 := hpc ▸ nnn.isLt
  calc step s = .next (s.advancePc.setPc nnn.toNat) := step_eq_exec hwait hdec
    _ = .next s := by rw [hpc, s.setPc_advancePc_self hlt]

/-- Steps that change nothing can be taken any number of times. -/
theorem runEvents_replicate_step {s : State} (h : step s = .next s) (n : Nat) :
    runEvents neverEnds (List.replicate n .step) s = .stopped s := by
  have hact : act .step s = .next s := h
  induction n with
  | zero => exact runEvents_nil rfl
  | succ n ih => exact (runEvents_next rfl hact _).trans ih

/-- Settles O59: the step runs the jump, which returns to its own address. -/
theorem suggestedEndIsFixedPoint : Obligations.SuggestedEndIsFixedPoint := fun _ h =>
  have hstep := step_eq_self_of_selfJump h
  ⟨hstep, runEvents_replicate_step hstep⟩

end Sys2Proof.Machine
end
